-- ==== Sys2Proof/Word.lean ====
section
/-! DEFINITION. The bit-vector types of the machine and the three readings of rule R6: `unsigned`,
`signed` and `toBits` (the spec's `to_bits_N`). Everything the instructions compute is computed over
the mathematical integers (rule R7) and becomes a bit vector again only through `toBits`. -/

namespace Sys2Proof

/-- One byte of instruction memory (rule R26). -/
abbrev Byte := BitVec 8

/-- A register number: five bits, bit 0 least significant (rules R4, R10, R42). -/
abbrev RegNum := BitVec 5

/-- A 32-bit element: a whole register on RV32, one half of a register on RV64; also an instruction word. -/
abbrev Word32 := BitVec 32

/-- The 64-bit datum of an accumulator. -/
abbrev DWord := BitVec 64

/-- Rule R6: the non-negative integer a bit vector spells in binary. -/
abbrev unsigned {n : Nat} (v : BitVec n) : Int := (v.toNat : Int)

/-- Rule R6: the two's-complement reading. PRESUMED by the spec (93, G4); log entry 22. -/
abbrev signed {n : Nat} (v : BitVec n) : Int := v.toInt

/-- Rule R6: `to_bits_N(z)`, the N-bit vector whose unsigned reading is `z mod 2^N`. -/
abbrev toBits (n : Nat) (z : Int) : BitVec n := BitVec.ofInt n z

end Sys2Proof
end

