-- ==== Sys2Proof/Config.lean ====
section
/-! DEFINITION. The implementation parameters of 00_scope.md section 4. The spec fixes none of them for a
part, so they are arguments of the model: State carries one `Config`, no step changes it (log entry 2),
and every statement is made for every `Config`. `XLEN` is the one parameter not in this record: it is
the constructor of the state's `Core` (Machine/State.lean), so a register cannot have the wrong width. -/

namespace Sys2Proof

/-- Parameter `XLEN` (00_scope.md section 4; 92, D1). -/
inductive Xlen where
  | rv32
  | rv64
  deriving DecidableEq, Repr

/-- The width in bits of a general register. -/
abbrev Xlen.bits : Xlen → Nat
  | .rv32 => 32
  | .rv64 => 64

/-- Parameter `pair0`: what RV32 does with the pair d = 0, registers 0 and 1 (rules R13, R14; 92, D4). -/
inductive Pair0 where
  /-- the model gives the case no meaning; the spec's default -/
  | refuse
  /-- the source's text read literally: `x[1] ++ x[0]` -/
  | literal
  /-- the pair reads as zero and its write is dropped -/
  | zeroDiscard
  deriving DecidableEq, Repr

/-- Parameter `odd_rd`: what RV32 does with `rd[0] = 1` (rule R46; 92, D5). -/
inductive OddRd where
  /-- bit 0 takes no part in choosing the pair; the spec's default and the source's pseudocode -/
  | ignoreBit0
  /-- the model gives the case no meaning -/
  | refuse
  deriving DecidableEq, Repr

/-- A value of the open parameter `ov_csr`: a control register's name and address, and OV's bit in it
(rule R20; 92, D6). -/
structure OvCsr where
  name : String
  address : Nat
  bit : Nat
  deriving DecidableEq, Repr

/-- The parameters of 00_scope.md section 4 but `XLEN`, each field's default the spec's own where the
table gives one; log entry 2 for the others. -/
structure Config where
  pair0 : Pair0 := .refuse
  oddRd : OddRd := .ignoreBit0
  /-- Rule R11: register 0 reads as zero and drops writes. -/
  x0Hardwired : Bool := true
  /-- OPEN in the spec. No in-scope instruction reads it, so nothing in the model does (rule R20). -/
  ovCsr : Option OvCsr := none
  /-- Rule R26: the first byte address of the program text. -/
  textBase : Nat := 0
  /-- Rule R26: the byte address just after the program text. -/
  textEnd : Nat := 0
  /-- Rule R115: the entry point after reset. -/
  resetPc : Nat := 0
  /-- `true`: 32-bit words are fetched and decoded; `false`: the program is a list of records (rule R26). -/
  binaryLevel : Bool := true
  deriving DecidableEq, Repr

end Sys2Proof
end

