-- ==== Sys2Proof/Syntax.lean ====
section
/-! DEFINITION. Instructions as syntax: one constructor of `Instr` per row of spec/opcode_table.json, each
with the operands `Rd, Rs1, Rs2` of its Syntax line (rules R42, R50). A register operand is a five-bit
number by its type, so every `Instr` is well formed. `AsmLine` is the record of the textual level
(`binary_level = false`), whose fields may be anything and are checked in WellFormed.lean. -/

namespace Sys2Proof

/-- The names of the eight instructions (rule R1). -/
inductive Mnemonic where
  | kmar64 | kmsr64 | smar64 | smsr64 | ukmar64 | ukmsr64 | umar64 | umsr64
  deriving DecidableEq, Repr

/-- The eight, in the order of the opcode table. -/
def Mnemonic.all : List Mnemonic :=
  [.kmar64, .kmsr64, .smar64, .smsr64, .ukmar64, .ukmsr64, .umar64, .umsr64]

/-- The spelling of the source, in capitals (rule R50). -/
def Mnemonic.name : Mnemonic → String
  | .kmar64 => "KMAR64"
  | .kmsr64 => "KMSR64"
  | .smar64 => "SMAR64"
  | .smsr64 => "SMSR64"
  | .ukmar64 => "UKMAR64"
  | .ukmsr64 => "UKMSR64"
  | .umar64 => "UMAR64"
  | .umsr64 => "UMSR64"

/-- The lower-case spelling that assemblers also accept (rule R51, PRESUMED by the spec: 93, G13; log entry 19). -/
def Mnemonic.lowerName : Mnemonic → String
  | .kmar64 => "kmar64"
  | .kmsr64 => "kmsr64"
  | .smar64 => "smar64"
  | .smsr64 => "smsr64"
  | .ukmar64 => "ukmar64"
  | .ukmsr64 => "ukmsr64"
  | .umar64 => "umar64"
  | .umsr64 => "umsr64"

/-- One instruction: the destination and accumulator `rd`, the multiplicands `rs1` and `rs2`. -/
inductive Instr where
  | kmar64 (rd rs1 rs2 : RegNum)
  | kmsr64 (rd rs1 rs2 : RegNum)
  | smar64 (rd rs1 rs2 : RegNum)
  | smsr64 (rd rs1 rs2 : RegNum)
  | ukmar64 (rd rs1 rs2 : RegNum)
  | ukmsr64 (rd rs1 rs2 : RegNum)
  | umar64 (rd rs1 rs2 : RegNum)
  | umsr64 (rd rs1 rs2 : RegNum)
  deriving DecidableEq, Repr

/-- The instruction of a name and three operands. -/
def Instr.make : Mnemonic → RegNum → RegNum → RegNum → Instr
  | .kmar64 => .kmar64
  | .kmsr64 => .kmsr64
  | .smar64 => .smar64
  | .smsr64 => .smsr64
  | .ukmar64 => .ukmar64
  | .ukmsr64 => .ukmsr64
  | .umar64 => .umar64
  | .umsr64 => .umsr64

/-- An instruction's name. -/
def Instr.mnemonic : Instr → Mnemonic
  | .kmar64 _ _ _ => .kmar64
  | .kmsr64 _ _ _ => .kmsr64
  | .smar64 _ _ _ => .smar64
  | .smsr64 _ _ _ => .smsr64
  | .ukmar64 _ _ _ => .ukmar64
  | .ukmsr64 _ _ _ => .ukmsr64
  | .umar64 _ _ _ => .umar64
  | .umsr64 _ _ _ => .umsr64

/-- The destination and accumulator operand. -/
def Instr.rd : Instr → RegNum
  | .kmar64 d _ _ | .kmsr64 d _ _ | .smar64 d _ _ | .smsr64 d _ _
  | .ukmar64 d _ _ | .ukmsr64 d _ _ | .umar64 d _ _ | .umsr64 d _ _ => d

/-- The first multiplicand operand. -/
def Instr.rs1 : Instr → RegNum
  | .kmar64 _ a _ | .kmsr64 _ a _ | .smar64 _ a _ | .smsr64 _ a _
  | .ukmar64 _ a _ | .ukmsr64 _ a _ | .umar64 _ a _ | .umsr64 _ a _ => a

/-- The second multiplicand operand. -/
def Instr.rs2 : Instr → RegNum
  | .kmar64 _ _ b | .kmsr64 _ _ b | .smar64 _ _ b | .smsr64 _ _ b
  | .ukmar64 _ _ b | .ukmsr64 _ _ b | .umar64 _ _ b | .umsr64 _ _ b => b

/-- A record of the textual level, `(mnemonic, rd, rs1, rs2)` (00_scope.md section 4; rule R26). -/
structure AsmLine where
  mnemonic : String
  rd : Nat
  rs1 : Nat
  rs2 : Nat
  deriving DecidableEq, Repr

end Sys2Proof
end

