-- ==== Sys2Proof/WellFormed.lean ====
section
/-! DEFINITION. The checks on what is given to the model from outside: a record of the textual level and a
configuration. An `Instr` needs none, its operands being five-bit numbers by type. -/

namespace Sys2Proof

/-- The name a spelling stands for: the source's capitals (rule R50) or the same in lower case (rule R51). -/
def Mnemonic.ofSpelling (t : String) : Option Mnemonic :=
  Mnemonic.all.find? fun m => t == m.name || t == m.lowerName

/-- A textual record is an instruction when its mnemonic is one of the eight (rules R47, R110) and each
operand is a register number, 0 to 31 (rules R10, R42). -/
def AsmLine.wellFormed (l : AsmLine) : Bool :=
  (Mnemonic.ofSpelling l.mnemonic).isSome &&
    decide (l.rd < 32) && decide (l.rs1 < 32) && decide (l.rs2 < 32)

/-- The conditions 00_scope.md section 4 puts on the address parameters: byte addresses of `XLEN` bits,
the text's ends multiples of 4 and in order. -/
def Config.wellFormed (x : Xlen) (c : Config) : Bool :=
  decide (c.textBase % 4 = 0) && decide (c.textEnd % 4 = 0) && decide (c.textBase ≤ c.textEnd) &&
    decide (c.textEnd < 2 ^ x.bits) && decide (c.resetPc < 2 ^ x.bits)

end Sys2Proof
end

