-- ==== Sys2Proof/Decode.lean ====
section
/-! DEFINITION. The decoder and encoder of rules R40 to R48, and the textual level's reading of a record.
Every opcode bit here is PRESUMED by the spec (92, D8; 93, G8): log entry 11. -/

namespace Sys2Proof

/-- Why bytes are not an instruction. -/
inductive DecodeReject where
  /-- the word matches none of the eight rows (rule R47) -/
  | notInScope
  /-- fewer than the four bytes of an instruction are given (rule R40) -/
  | tooShort
  deriving DecidableEq, Repr

/-- Rule R44: the field that alone tells the eight apart. -/
def Mnemonic.funct7 : Mnemonic → BitVec 7
  | .smar64 => 0b1000010
  | .smsr64 => 0b1000011
  | .kmar64 => 0b1001010
  | .kmsr64 => 0b1001011
  | .umar64 => 0b1010010
  | .umsr64 => 0b1010011
  | .ukmar64 => 0b1011010
  | .ukmsr64 => 0b1011011

/-- Rule R45: the bits of `funct7`, `funct3` and `opcode`. -/
def rowMask : Word32 := 0xFE00707F

/-- Rules R43 and R45: `match(M) = funct7(M) << 25 | 0b001 << 12 | 0x77`. -/
def Mnemonic.matchWord (m : Mnemonic) : Word32 :=
  m.funct7.setWidth 32 <<< 25 ||| 0b001#32 <<< 12 ||| 0x77#32

/-- Rule R46: `rd = w[11:7]`. -/
def rdField (w : Word32) : RegNum := w.extractLsb' 7 5

/-- Rule R46: `rs1 = w[19:15]`. -/
def rs1Field (w : Word32) : RegNum := w.extractLsb' 15 5

/-- Rule R46: `rs2 = w[24:20]`. -/
def rs2Field (w : Word32) : RegNum := w.extractLsb' 20 5

/-- Rule R48: the decoder, total on any 32-bit word. -/
def decodeWord (w : Word32) : Except DecodeReject Instr :=
  match Mnemonic.all.find? fun m => w &&& rowMask == m.matchWord with
  | some m => .ok (Instr.make m (rdField w) (rs1Field w) (rs2Field w))
  | none => .error .notInScope

/-- Rule R27: four bytes, the one at the lowest address first, as a little-endian word. -/
def wordOfBytes (b0 b1 b2 b3 : Byte) : Word32 := b3 ++ b2 ++ b1 ++ b0

/-- Rule R27, the other way: the byte of a word at offset `i`. -/
def byteOfWord (w : Word32) (i : Nat) : Byte := w.extractLsb' (8 * i) 8

/-- Decoding total on any bytes, lowest address first; the rest of the bytes is given back. -/
def decodeBytes : List Byte → Except DecodeReject (Instr × List Byte)
  | b0 :: b1 :: b2 :: b3 :: rest =>
    match decodeWord (wordOfBytes b0 b1 b2 b3) with
    | .ok i => .ok (i, rest)
    | .error e => .error e
  | _ => .error .tooShort

/-- Rule R48: `Encode(M, rd, rs1, rs2) = match(M) | rs2 << 20 | rs1 << 15 | rd << 7`. -/
def encode (i : Instr) : Word32 :=
  i.mnemonic.matchWord ||| i.rs2.setWidth 32 <<< 20 ||| i.rs1.setWidth 32 <<< 15 |||
    i.rd.setWidth 32 <<< 7

/-- The four bytes of a word as instruction memory holds them, lowest address first (rule R27). -/
def bytesOfWord (w : Word32) : List Byte :=
  [byteOfWord w 0, byteOfWord w 1, byteOfWord w 2, byteOfWord w 3]

/-- The textual level's reading of a record; a record that is not well formed is no instruction. -/
def AsmLine.toInstr (l : AsmLine) : Except DecodeReject Instr :=
  match Mnemonic.ofSpelling l.mnemonic with
  | some m =>
    if l.rd < 32 ∧ l.rs1 < 32 ∧ l.rs2 < 32 then
      .ok (Instr.make m (BitVec.ofNat 5 l.rd) (BitVec.ofNat 5 l.rs1) (BitVec.ofNat 5 l.rs2))
    else .error .notInScope
  | none => .error .notInScope

/-- The record of an instruction (rule R50's order: destination, first source, second source). -/
def Instr.toAsmLine (i : Instr) : AsmLine :=
  ⟨i.mnemonic.name, i.rd.toNat, i.rs1.toNat, i.rs2.toNat⟩

/-- Rule R50's assembly form, `MNEMONIC Rd, Rs1, Rs2`, with registers spelled as rule R51 has them. -/
def Instr.assembly (i : Instr) : String :=
  i.mnemonic.name ++ " x" ++ toString i.rd.toNat ++ ", x" ++ toString i.rs1.toNat ++ ", x" ++
    toString i.rs2.toNat

/-- The instruction the decoder reads from a table word: its low `nbits` bits, zeros above, laid out in
memory order. Every row has 32 bits, so a longer word is none of them. -/
def decodeTableWord (nbits w : Nat) : Option Instr :=
  if nbits ≤ 32 then
    match decodeBytes (bytesOfWord (BitVec.ofNat 32 (w % 2 ^ nbits))) with
    | .ok (i, _) => some i
    | .error _ => none
  else none

end Sys2Proof
end

