-- ==== Sys2Proof/Machine/State.lean ====
section
/-! DEFINITION. The whole state of the machine (10_state.md section 1), the outcomes of a step other than the
next state (rule R110), and the state after reset (rules R23, R115). -/

namespace Sys2Proof.Machine

/-- Instruction memory: (byte address, byte) pairs, addresses strictly rising. An unlisted address holds no
value (log entry 6). -/
abbrev Memory := List Host.Cell

/-- Reasons for a fault: the closed list of rule R110. -/
inductive Fault where
  /-- Raised by nothing in this model: rule R110 has it only for a model that marks registers unwritten, and
  rule R23 offers the launch-state treatment, which this model takes (log entry 18). Safe. -/
  | unwrittenRegister (n : RegNum)
  deriving DecidableEq, Repr

/-- Reasons for a refusal: rule R110's closed list, the end of a run, and the host's own. -/
inductive Refusal where
  /-- Raised by exec for an instruction without a meaning; no arm does. Safe. -/
  | notModelled (mnemonic : String)
  /-- Rules R47, R110: raised by the fetch of a word or record that is none of the eight instructions. Safe. -/
  | notInScope
  /-- Rules R13, R14, R110: raised by a pair access on RV32 with `rd[4:1] = 0` and `pair0 = refuse`. Safe. -/
  | pair0
  /-- Rules R59, R110: raised by an accumulator access on RV32 with `rd[0] = 1` and `odd_rd = refuse`. Safe. -/
  | oddRd
  /-- Rules R29, R110: raised by the fetch when `pc` is no multiple of 4 or lies outside the text. Safe. -/
  | badFetch
  /-- Rule R118: raised by step at `pc = text_end`, where the run is final and no step is taken
  (log entry 7). Safe. -/
  | runFinal
  deriving DecidableEq, Repr

/-- The registers whose width is `XLEN`: the 32 general registers (rule R10) and the program counter (rule R17). -/
structure Hart (w : Nat) where
  x : Vector (BitVec w) 32
  pc : BitVec w
  deriving DecidableEq, Repr

/-- The registers at the machine's `XLEN`, which its constructor says (92, D1). -/
inductive Core where
  | rv32 (h : Hart 32)
  | rv64 (h : Hart 64)
  deriving DecidableEq, Repr

/-- The machine. `core` and `ov` are the architectural state of 10_state.md section 1. `cfg`, `mem` and
`listing` are parameters of the step in the spec (00_scope.md section 4, rule R26); they stand here because
a step takes the state alone, and no step changes them. -/
structure State where
  /-- general registers and program counter -/
  core : Core
  /-- the overflow flag OV (rule R18) -/
  ov : Bool
  /-- the implementation parameters -/
  cfg : Config
  /-- instruction memory, used at the binary level (rule R26) -/
  mem : Memory
  /-- the program text at the textual level (rule R26) -/
  listing : List AsmLine
  deriving DecidableEq, Repr

/-- Parameter `XLEN` of the machine. -/
def State.xlen (s : State) : Xlen :=
  match s.core with
  | .rv32 _ => .rv32
  | .rv64 _ => .rv64

/-- The registers after reset: `pc` at `reset_pc` (rule R115). Rule R23 leaves `x[1..31]` unspecified; their
zero is log entry 3 (DESIGN CHOICE, unsafe). -/
def Hart.reset (w : Nat) (c : Config) : Hart w :=
  { x := Vector.replicate 32 0, pc := BitVec.ofNat w c.resetPc }

/-- The state after reset of a machine with the given parameters. Rule R23 leaves `OV` unspecified; its zero
is log entry 4 (DESIGN CHOICE, unsafe). No program is loaded (log entry 5). -/
def State.resetFor (x : Xlen) (c : Config) : State :=
  { core := match x with
      | .rv32 => .rv32 (Hart.reset 32 c)
      | .rv64 => .rv64 (Hart.reset 64 c)
    ov := false
    cfg := c
    mem := []
    listing := [] }

/-- The machine right after reset, with the parameters of log entries 1 and 2 (DESIGN CHOICE). -/
def State.reset : State := State.resetFor .rv64 {}

end Sys2Proof.Machine
end

