-- ==== Sys2Proof/Machine/Ops.lean ====
section
/-! DEFINITION. The named operations over registers, program counter and instruction memory, and the fetch.
The spec describes no exception entry and no return (rules R95, R99, R100), so there is neither here; every
outcome that is not a next state is a refusal of rule R110. -/

namespace Sys2Proof.Machine

/-! ### General registers -/

/-- Rule R11: register 0 is the constant zero when `x0_hardwired`. -/
def isZeroReg (c : Config) (n : RegNum) : Bool := c.x0Hardwired && n == 0

/-- Rules R8, R11: read general register `n`. -/
def Hart.read {w : Nat} (c : Config) (h : Hart w) (n : RegNum) : BitVec w :=
  if isZeroReg c n then 0 else h.x[n.toNat]'n.isLt

/-- Rules R8, R11: write general register `n`; a write of the constant register changes nothing. -/
def Hart.write {w : Nat} (c : Config) (h : Hart w) (n : RegNum) (v : BitVec w) : Hart w :=
  if isZeroReg c n then h else { h with x := h.x.set n.toNat v n.isLt }

/-- Rule R17: `pc <- to_bits_XLEN(unsigned(pc) + 4)`. -/
def Hart.advance {w : Nat} (h : Hart w) : Hart w := { h with pc := toBits w (unsigned h.pc + 4) }

/-- The unsigned value of general register `n`, at either width. -/
def State.regVal (s : State) (n : RegNum) : Nat :=
  match s.core with
  | .rv32 h => (h.read s.cfg n).toNat
  | .rv64 h => (h.read s.cfg n).toNat

/-- The unsigned value of the program counter, at either width: a byte address. -/
def State.pcVal (s : State) : Nat :=
  match s.core with
  | .rv32 h => h.pc.toNat
  | .rv64 h => h.pc.toNat

/-- Rule R17 at the machine's width: control passes to `pc + 4`. -/
def State.advance (s : State) : State :=
  match s.core with
  | .rv32 h => { s with core := .rv32 h.advance }
  | .rv64 h => { s with core := .rv64 h.advance }

/-! ### Instruction memory -/

/-- The canonical form: addresses strictly rising. An unlisted address holds no value, so no entry can equal
what an unlisted address reads as. -/
def Memory.wf (m : Memory) : Bool := decide ((m.map Prod.fst).Pairwise (· < ·))

/-- The byte at an address, or none where the memory lists none. -/
def Memory.readByte : Memory → Nat → Option Byte
  | [], _ => none
  | (k, v) :: m, a => if k = a then some v else Memory.readByte m a

/-- Put a byte at an address. No instruction does (rule R25): this is how a program comes to be there. -/
def Memory.writeByte : Memory → Nat → Byte → Memory
  | [], a, b => [(a, b)]
  | (k, v) :: m, a, b =>
    if a < k then (a, b) :: (k, v) :: m
    else if a = k then (a, b) :: m
    else (k, v) :: Memory.writeByte m a b

/-- Rule R27: `MemRead(a, 4)`, little-endian; none where a byte is absent. -/
def Memory.readWord (m : Memory) (a : Nat) : Option Word32 :=
  match Memory.readByte m a, Memory.readByte m (a + 1), Memory.readByte m (a + 2),
      Memory.readByte m (a + 3) with
  | some b0, some b1, some b2, some b3 => some (wordOfBytes b0 b1 b2 b3)
  | _, _, _, _ => none

/-- Put a word at an address, little-endian (rule R27). -/
def Memory.writeWord (m : Memory) (a : Nat) (w : Word32) : Memory :=
  Memory.writeByte (Memory.writeByte (Memory.writeByte (Memory.writeByte m
    a (byteOfWord w 0)) (a + 1) (byteOfWord w 1)) (a + 2) (byteOfWord w 2)) (a + 3) (byteOfWord w 3)

/-! ### Fetch -/

/-- Rule R29: `pc` is a multiple of 4 inside the program text. -/
def State.pcInText (s : State) : Bool :=
  decide (s.pcVal % 4 = 0) && decide (s.cfg.textBase ≤ s.pcVal) && decide (s.pcVal < s.cfg.textEnd)

/-- Rule R118: the run is final exactly when `pc = text_end`. -/
def State.isFinal (s : State) : Bool := decide (s.pcVal = s.cfg.textEnd)

/-- A decoder's rejection as the refusal of rule R110. -/
def refuseDecode : Except DecodeReject Instr → Except Refusal Instr
  | .ok i => .ok i
  | .error _ => .error .notInScope

/-- Rules R27, R48: the instruction in the four bytes at `pc`. A text address that no byte was given for holds
no program text, so it is a bad fetch (log entry 6). -/
def State.fetchBinary (s : State) : Except Refusal Instr :=
  match Memory.readWord s.mem s.pcVal with
  | some w => refuseDecode (decodeWord w)
  | none => .error .badFetch

/-- Rules R17, R26: the record at `index = (pc - text_base) / 4` of the textual program. -/
def State.fetchTextual (s : State) : Except Refusal Instr :=
  match s.listing[(s.pcVal - s.cfg.textBase) / 4]? with
  | some l => refuseDecode l.toInstr
  | none => .error .badFetch

/-- The fetch and decode of a step, rule R98's order: `BadFetch`, then `NotInScope`. -/
def State.fetch (s : State) : Except Refusal Instr :=
  if s.pcInText then
    if s.cfg.binaryLevel then s.fetchBinary else s.fetchTextual
  else .error .badFetch

end Sys2Proof.Machine
end

