-- ==== Sys2Proof/Machine/Flags.lean ====
section
/-! DEFINITION. How an exact result becomes 64 bits, and the one flag, OV. Each narrowing answers the bits and
whether it saturated. -/

namespace Sys2Proof.Machine

/-- Rule R57: saturation to the Q63 range, strict on both sides. -/
def satQ63 (z : Int) : DWord × Bool :=
  if z > 2 ^ 63 - 1 then (0x7FFFFFFFFFFFFFFF, true)
  else if z < -2 ^ 63 then (0x8000000000000000, true)
  else (toBits 64 z, false)

/-- Rule R58: saturation to the U64 range, strict on both sides. -/
def satU64 (z : Int) : DWord × Bool :=
  if z > 2 ^ 64 - 1 then (0xFFFFFFFFFFFFFFFF, true)
  else if z < 0 then (0x0000000000000000, true)
  else (toBits 64 z, false)

/-- Rules R65, R66, R69, R70: the low 64 bits, with no saturation (DEDUCED by the spec, 92, D25; log entry 13). -/
def wrap64 (z : Int) : DWord × Bool := (toBits 64 z, false)

/-- Rule R18: OV is set to 1 where a result saturates and is otherwise left as it was. -/
def State.setOvIf (s : State) (sat : Bool) : State := if sat then { s with ov := true } else s

end Sys2Proof.Machine
end

