-- ==== Sys2Proof/Machine/Operands.lean ====
section
/-! DEFINITION. The operands: the multiplicand products (rules R55, R56, R61) and the 64-bit accumulator that
`Rd` names, a register pair on RV32 (rules R12 to R14) and a register on RV64 (rule R15). -/

namespace Sys2Proof.Machine

/-! ### Multiplicands -/

/-- Rule R55: the exact product of two signed readings. -/
def smul32 (a b : Word32) : Int := signed a * signed b

/-- Rule R56: the exact product of two unsigned readings. -/
def umul32 (a b : Word32) : Int := unsigned a * unsigned b

/-- `v[31:0]`, the source's `W[0]` (rule R9; log entry 22). -/
def lowElement (v : DWord) : Word32 := v.extractLsb' 0 32

/-- `v[63:32]`, the source's `W[1]` (rule R9; log entry 22). -/
def highElement (v : DWord) : Word32 := v.extractLsb' 32 32

/-- Rule R61 on values, signed: one product of whole registers on RV32, the sum of two lane products on RV64. -/
def productS : (x : Xlen) → BitVec x.bits → BitVec x.bits → Int
  | .rv32, a, b => smul32 a b
  | .rv64, a, b =>
    smul32 (lowElement a) (lowElement b) + smul32 (highElement a) (highElement b)

/-- Rule R61 on values, unsigned; on RV32 too (90_conflicts.md C1: the source's `*` is a misprint for `u*`). -/
def productU : (x : Xlen) → BitVec x.bits → BitVec x.bits → Int
  | .rv32, a, b => umul32 a b
  | .rv64, a, b =>
    umul32 (lowElement a) (lowElement b) + umul32 (highElement a) (highElement b)

/-- Rule R61: `ProdSum_s(rs1, rs2)`. -/
def prodSumS (s : State) (rs1 rs2 : RegNum) : Int :=
  match s.core with
  | .rv32 h => productS .rv32 (h.read s.cfg rs1) (h.read s.cfg rs2)
  | .rv64 h => productS .rv64 (h.read s.cfg rs1) (h.read s.cfg rs2)

/-- Rule R61: `ProdSum_u(rs1, rs2)`. -/
def prodSumU (s : State) (rs1 rs2 : RegNum) : Int :=
  match s.core with
  | .rv32 h => productU .rv32 (h.read s.cfg rs1) (h.read s.cfg rs2)
  | .rv64 h => productU .rv64 (h.read s.cfg rs1) (h.read s.cfg rs2)

/-! ### Accumulator -/

/-- `Rd(4,1)`, the pair number d (rules R9, R46). -/
def pairNum (rd : RegNum) : BitVec 4 := rd.extractLsb' 1 4

/-- `t_L = CONCAT(Rd(4,1),1'b0)`: register 2d (rule R13). -/
def evenReg (d : BitVec 4) : RegNum := d ++ 0#1

/-- `t_H = CONCAT(Rd(4,1),1'b1)`: register 2d+1 (rule R13). -/
def oddReg (d : BitVec 4) : RegNum := d ++ 1#1

/-- Rule R13: `PairRead(d)`. -/
def pairRead (c : Config) (h : Hart 32) (d : BitVec 4) : Except Refusal DWord :=
  if d = 0 then
    match c.pair0 with
    | .refuse => .error .pair0
    | .literal => .ok (h.read c 1 ++ h.read c 0)
    | .zeroDiscard => .ok 0
  else .ok (h.read c (oddReg d) ++ h.read c (evenReg d))

/-- Rule R14: `PairWrite(d, v)`, both halves at once (log entry 24). -/
def pairWrite (c : Config) (h : Hart 32) (d : BitVec 4) (v : DWord) : Except Refusal (Hart 32) :=
  if d = 0 then
    match c.pair0 with
    | .refuse => .error .pair0
    | .literal => .ok ((h.write c 1 (highElement v)).write c 0 (lowElement v))
    | .zeroDiscard => .ok h
  else .ok ((h.write c (oddReg d) (highElement v)).write c (evenReg d) (lowElement v))

/-- Rules R46, R59: an odd `rd` that the configuration refuses. -/
def oddRdRefused (c : Config) (rd : RegNum) : Bool := rd.getLsbD 0 && c.oddRd == .refuse

/-- Rule R59: `AccRead(rd)`. -/
def accRead (s : State) (rd : RegNum) : Except Refusal DWord :=
  match s.core with
  | .rv32 h => if oddRdRefused s.cfg rd then .error .oddRd else pairRead s.cfg h (pairNum rd)
  | .rv64 h => .ok (h.read s.cfg rd)

/-- Rule R60: `AccWrite(rd, v)`. -/
def accWrite (s : State) (rd : RegNum) (v : DWord) : Except Refusal State :=
  match s.core with
  | .rv32 h =>
    match pairWrite s.cfg h (pairNum rd) v with
    | .ok h' => .ok { s with core := .rv32 h' }
    | .error r => .error r
  | .rv64 h => .ok { s with core := .rv64 (h.write s.cfg rd v) }

end Sys2Proof.Machine
end

