-- ==== Sys2Proof/Machine/Mul32AddSub64.lean ====
section
/-! DEFINITION. The meanings of the eight instructions (40_mul32_addsub64.md), each over the one shape of rule
R62: read the accumulator and the multiplicands from the state before the instruction, compute over the
integers, narrow once, write the accumulator, set OV where the result saturated, pass control to `pc + 4`. -/

namespace Sys2Proof.Machine

/-- Rule R62, common to all eight. `narrowed` gives the 64 bits to write and whether they are saturated, from
the accumulator before the instruction. A refusal of either accumulator access ends the step. -/
def accumulate (s : State) (rd : RegNum) (narrowed : DWord → DWord × Bool) :
    Host.Outcome State Fault Refusal :=
  match accRead s rd with
  | .error r => .refused r
  | .ok acc =>
    match accWrite s rd (narrowed acc).1 with
    | .error r => .refused r
    | .ok s' => .next (s'.setOvIf (narrowed acc).2).advance

/-- Rule R63. -/
def execKmar64 (rd rs1 rs2 : RegNum) (s : State) : Host.Outcome State Fault Refusal :=
  accumulate s rd fun acc => satQ63 (signed acc + prodSumS s rs1 rs2)

/-- Rule R64. -/
def execKmsr64 (rd rs1 rs2 : RegNum) (s : State) : Host.Outcome State Fault Refusal :=
  accumulate s rd fun acc => satQ63 (signed acc - prodSumS s rs1 rs2)

/-- Rule R65. -/
def execSmar64 (rd rs1 rs2 : RegNum) (s : State) : Host.Outcome State Fault Refusal :=
  accumulate s rd fun acc => wrap64 (signed acc + prodSumS s rs1 rs2)

/-- Rule R66. -/
def execSmsr64 (rd rs1 rs2 : RegNum) (s : State) : Host.Outcome State Fault Refusal :=
  accumulate s rd fun acc => wrap64 (signed acc - prodSumS s rs1 rs2)

/-- Rule R67. -/
def execUkmar64 (rd rs1 rs2 : RegNum) (s : State) : Host.Outcome State Fault Refusal :=
  accumulate s rd fun acc => satU64 (unsigned acc + prodSumU s rs1 rs2)

/-- Rule R68. -/
def execUkmsr64 (rd rs1 rs2 : RegNum) (s : State) : Host.Outcome State Fault Refusal :=
  accumulate s rd fun acc => satU64 (unsigned acc - prodSumU s rs1 rs2)

/-- Rule R69. -/
def execUmar64 (rd rs1 rs2 : RegNum) (s : State) : Host.Outcome State Fault Refusal :=
  accumulate s rd fun acc => wrap64 (unsigned acc + prodSumU s rs1 rs2)

/-- Rule R70. -/
def execUmsr64 (rd rs1 rs2 : RegNum) (s : State) : Host.Outcome State Fault Refusal :=
  accumulate s rd fun acc => wrap64 (unsigned acc - prodSumU s rs1 rs2)

end Sys2Proof.Machine
end

