-- ==== Sys2Proof/Machine/Dispatch.lean ====
section
/-! DEFINITION. One arm per constructor of Instr, each one call of its meaning. -/

namespace Sys2Proof.Machine

def exec (i : Instr) (s : State) : Host.Outcome State Fault Refusal :=
  match i with
  | .kmar64 rd rs1 rs2 => Sys2Proof.Machine.execKmar64 rd rs1 rs2 s
  | .kmsr64 rd rs1 rs2 => Sys2Proof.Machine.execKmsr64 rd rs1 rs2 s
  | .smar64 rd rs1 rs2 => Sys2Proof.Machine.execSmar64 rd rs1 rs2 s
  | .smsr64 rd rs1 rs2 => Sys2Proof.Machine.execSmsr64 rd rs1 rs2 s
  | .ukmar64 rd rs1 rs2 => Sys2Proof.Machine.execUkmar64 rd rs1 rs2 s
  | .ukmsr64 rd rs1 rs2 => Sys2Proof.Machine.execUkmsr64 rd rs1 rs2 s
  | .umar64 rd rs1 rs2 => Sys2Proof.Machine.execUmar64 rd rs1 rs2 s
  | .umsr64 rd rs1 rs2 => Sys2Proof.Machine.execUmsr64 rd rs1 rs2 s

end Sys2Proof.Machine
end

