-- ==== Sys2Proof/Machine/Step.lean ====
section
/-! DEFINITION. One step: at `text_end` none is taken (rule R118); otherwise fetch, decode and execute (rules R62,
R98, R110). And the host's way of placing one instruction for the next step. -/

namespace Sys2Proof.Machine

/-- One instruction step. -/
def step (s : State) : Host.Outcome State Fault Refusal :=
  if s.isFinal then .refused .runFinal
  else
    match s.fetch with
    | .ok i => exec i s
    | .error r => .refused r

/-- `s` with the instruction whose bits are `w` in the four bytes at `pc`: the word is stored, the text is widened
to hold it and the binary level is selected, which is all that the fetch of it needs (log entry 5). -/
def State.withFetchWord (s : State) (nbits w : Nat) : State :=
  { s with
    mem := Memory.writeWord s.mem s.pcVal (BitVec.ofNat 32 (w % 2 ^ nbits))
    cfg := { s.cfg with
      textBase := min s.cfg.textBase s.pcVal
      textEnd := max s.cfg.textEnd (s.pcVal + 4)
      binaryLevel := true } }

end Sys2Proof.Machine
end

