-- ==== Sys2Proof/Machine/Intrinsics.lean ====
section
/-! DEFINITION. The eight C intrinsics of 41_intrinsics.md. They are no instructions and the step does not use
them: each is the value function of one instruction, from the C arguments seen as bit vectors to the returned
bits and whether OV is set. That a call is one execution of the instruction is DEDUCED by the spec (R81, 92, D23),
the widths of the C types are PRESUMED by it (R82, 93, G10): log entry 21. -/

namespace Sys2Proof.Machine

/-- The C types of the prototypes of rule R80. -/
inductive CType where
  | long
  | longLong
  | unsignedLong
  | unsignedLongLong
  deriving DecidableEq, Repr

/-- Rule R82: `long` is `XLEN` bits, `long long` 64 bits. -/
def CType.bits (x : Xlen) : CType → Nat
  | .long | .unsignedLong => x.bits
  | .longLong | .unsignedLongLong => 64

/-- A prototype of rule R80: the function's name, its return type and the types of `t`, `a` and `b`. -/
structure Prototype where
  name : String
  ret : CType
  t : CType
  a : CType
  b : CType
  deriving DecidableEq, Repr

/-- Rule R80's prototypes: signed types for the K and S forms, unsigned for the UK and U forms. -/
def prototypeOf (m : Mnemonic) : Prototype :=
  match m with
  | .kmar64 | .kmsr64 | .smar64 | .smsr64 =>
    { name := "__RV_" ++ m.name, ret := .longLong, t := .longLong, a := .long, b := .long }
  | .ukmar64 | .ukmsr64 | .umar64 | .umsr64 =>
    { name := "__RV_" ++ m.name, ret := .unsignedLongLong, t := .unsignedLongLong,
      a := .unsignedLong, b := .unsignedLong }

/-- Rule R85. -/
def rvKmar64 (x : Xlen) (t : DWord) (a b : BitVec x.bits) : DWord × Bool :=
  satQ63 (signed t + productS x a b)

/-- Rule R86. -/
def rvKmsr64 (x : Xlen) (t : DWord) (a b : BitVec x.bits) : DWord × Bool :=
  satQ63 (signed t - productS x a b)

/-- Rule R87. -/
def rvSmar64 (x : Xlen) (t : DWord) (a b : BitVec x.bits) : DWord × Bool :=
  wrap64 (signed t + productS x a b)

/-- Rule R88. -/
def rvSmsr64 (x : Xlen) (t : DWord) (a b : BitVec x.bits) : DWord × Bool :=
  wrap64 (signed t - productS x a b)

/-- Rule R89. -/
def rvUkmar64 (x : Xlen) (t : DWord) (a b : BitVec x.bits) : DWord × Bool :=
  satU64 (unsigned t + productU x a b)

/-- Rule R90. -/
def rvUkmsr64 (x : Xlen) (t : DWord) (a b : BitVec x.bits) : DWord × Bool :=
  satU64 (unsigned t - productU x a b)

/-- Rule R91. -/
def rvUmar64 (x : Xlen) (t : DWord) (a b : BitVec x.bits) : DWord × Bool :=
  wrap64 (unsigned t + productU x a b)

/-- Rule R92. -/
def rvUmsr64 (x : Xlen) (t : DWord) (a b : BitVec x.bits) : DWord × Bool :=
  wrap64 (unsigned t - productU x a b)

/-- The intrinsic of an instruction: `__RV_<MNEMONIC>(t, a, b)` (rule R81). -/
def rvIntrinsic (m : Mnemonic) (x : Xlen) (t : DWord) (a b : BitVec x.bits) : DWord × Bool :=
  match m with
  | .kmar64 => rvKmar64 x t a b
  | .kmsr64 => rvKmsr64 x t a b
  | .smar64 => rvSmar64 x t a b
  | .smsr64 => rvSmsr64 x t a b
  | .ukmar64 => rvUkmar64 x t a b
  | .ukmsr64 => rvUkmsr64 x t a b
  | .umar64 => rvUmar64 x t a b
  | .umsr64 => rvUmsr64 x t a b

end Sys2Proof.Machine
end

