-- ==== Sys2Proof/Safety.lean ====
section
/-! DEFINITION. What a claim means by a well-placed state, a launched run and a finished run: the launch premises
of rule R116 that speak of the state, and the end of a run of rule R118. The other premises of R116 (the
instructions are implemented, nobody else writes registers, OV or text) hold of the model by construction and
are premises about the chip (log entries 15, 16, 28). -/

namespace Sys2Proof.Machine

/-- A well-placed state: the parameters are as 00_scope.md section 4 asks, the memory is canonical, and `pc` is a
multiple of 4 from `text_base` to `text_end` (rules R17, R29). -/
def State.inv (s : State) : Bool :=
  s.cfg.wellFormed s.xlen && Memory.wf s.mem && decide (s.pcVal % 4 = 0) &&
    decide (s.cfg.textBase ≤ s.pcVal) && decide (s.pcVal ≤ s.cfg.textEnd)

/-- Rule R116's `TextPresent`: every address of the text holds a byte or, at the textual level, there is one record
for every four addresses. -/
abbrev State.TextPresent (s : State) : Prop :=
  if s.cfg.binaryLevel then
    ∀ k, k < s.cfg.textEnd - s.cfg.textBase → (Memory.readByte s.mem (s.cfg.textBase + k)).isSome = true
  else 4 * s.listing.length = s.cfg.textEnd - s.cfg.textBase

/-- The number of instructions in the program text. -/
def State.textLength (s : State) : Nat := (s.cfg.textEnd - s.cfg.textBase) / 4

/-- The program text at instruction index `k`, fetched as a step at that place would fetch it. -/
def State.instrAt (s : State) (k : Nat) : Except Refusal Instr :=
  if s.cfg.binaryLevel then
    match Memory.readWord s.mem (s.cfg.textBase + 4 * k) with
    | some w => refuseDecode (decodeWord w)
    | none => .error .badFetch
  else
    match s.listing[k]? with
    | some l => refuseDecode l.toInstr
    | none => .error .badFetch

/-- A run is launched at `text_base` (rules R23, R115), whatever the registers and OV hold. -/
def State.launched (s : State) : Bool := s.inv && decide (s.pcVal = s.cfg.textBase)

/-- The two levels of the parameter `binary_level` hold one program: every record of the listing is an
instruction, and instruction memory holds its encoding at `text_base + 4 * index`. -/
def State.SameProgram (s : State) : Prop :=
  4 * s.listing.length = s.cfg.textEnd - s.cfg.textBase ∧
    ∀ k (hk : k < s.listing.length), ∃ i, (s.listing[k]).toInstr = .ok i ∧
      Memory.readWord s.mem (s.cfg.textBase + 4 * k) = some (encode i)

/-- The machine of `s` with the parameter `binary_level` set. -/
def State.atLevel (s : State) (binary : Bool) : State :=
  { s with cfg := { s.cfg with binaryLevel := binary } }

/-- An outcome with a function applied to its next state. -/
def onNext (f : State → State) :
    Host.Outcome State Fault Refusal → Host.Outcome State Fault Refusal
  | .next t => .next (f t)
  | .fault r => .fault r
  | .refused r => .refused r

end Sys2Proof.Machine
end

