-- ==== Sys2Proof/Certificates/Slice0/Obligations.lean ====
section
/-! DEFINITION. The statements for the provers. `Sys2Proof.Statements` holds what they share: the arithmetic of
each rule R63 to R70 written over integers and register numbers, apart from the operations the meanings use. -/

namespace Sys2Proof.Statements

open Sys2Proof.Machine

/-- Bits 31 to 0 of a 64-bit register. -/
abbrev lo (v : DWord) : Word32 := v.extractLsb' 0 32

/-- Bits 63 to 32 of a 64-bit register. -/
abbrev hi (v : DWord) : Word32 := v.extractLsb' 32 32

/-- What a rule R63 to R70 computes: the exact result at each width from the accumulator and the two multiplicand
registers, the integer it is brought to, and whether that sets OV. -/
structure ExactRule where
  rv32 : DWord → Word32 → Word32 → Int
  rv64 : DWord → DWord → DWord → Int
  narrow : Int → Int
  setsOv : Int → Bool

/-- Nearest value of the Q63 range, -2^63 to 2^63-1. -/
abbrev toQ63 (z : Int) : Int := max (-2 ^ 63) (min z (2 ^ 63 - 1))

/-- Outside the Q63 range. -/
abbrev outsideQ63 (z : Int) : Bool := decide (z < -2 ^ 63 ∨ 2 ^ 63 - 1 < z)

/-- Nearest value of the U64 range, 0 to 2^64-1. -/
abbrev toU64 (z : Int) : Int := max 0 (min z (2 ^ 64 - 1))

/-- Outside the U64 range. -/
abbrev outsideU64 (z : Int) : Bool := decide (z < 0 ∨ 2 ^ 64 - 1 < z)

/-- R63: signed products added, saturated to Q63. -/
abbrev kmar64Rule : ExactRule where
  rv32 acc a b := acc.toInt + a.toInt * b.toInt
  rv64 acc a b := acc.toInt + (lo a).toInt * (lo b).toInt + (hi a).toInt * (hi b).toInt
  narrow := toQ63
  setsOv := outsideQ63

/-- R64: signed products subtracted, saturated to Q63. -/
abbrev kmsr64Rule : ExactRule where
  rv32 acc a b := acc.toInt - a.toInt * b.toInt
  rv64 acc a b := acc.toInt - (lo a).toInt * (lo b).toInt - (hi a).toInt * (hi b).toInt
  narrow := toQ63
  setsOv := outsideQ63

/-- R65: signed products added, the low 64 bits kept, OV never written. -/
abbrev smar64Rule : ExactRule where
  rv32 acc a b := acc.toInt + a.toInt * b.toInt
  rv64 acc a b := acc.toInt + (lo a).toInt * (lo b).toInt + (hi a).toInt * (hi b).toInt
  narrow z := z
  setsOv _ := false

/-- R66: signed products subtracted, the low 64 bits kept, OV never written. -/
abbrev smsr64Rule : ExactRule where
  rv32 acc a b := acc.toInt - a.toInt * b.toInt
  rv64 acc a b := acc.toInt - (lo a).toInt * (lo b).toInt - (hi a).toInt * (hi b).toInt
  narrow z := z
  setsOv _ := false

/-- R67: unsigned products added, saturated to U64. -/
abbrev ukmar64Rule : ExactRule where
  rv32 acc a b := (acc.toNat : Int) + a.toNat * b.toNat
  rv64 acc a b := (acc.toNat : Int) + (lo a).toNat * (lo b).toNat + (hi a).toNat * (hi b).toNat
  narrow := toU64
  setsOv := outsideU64

/-- R68: unsigned products subtracted, saturated to U64. -/
abbrev ukmsr64Rule : ExactRule where
  rv32 acc a b := (acc.toNat : Int) - a.toNat * b.toNat
  rv64 acc a b := (acc.toNat : Int) - (lo a).toNat * (lo b).toNat - (hi a).toNat * (hi b).toNat
  narrow := toU64
  setsOv := outsideU64

/-- R69: unsigned products added, the low 64 bits kept, OV never written. -/
abbrev umar64Rule : ExactRule where
  rv32 acc a b := (acc.toNat : Int) + a.toNat * b.toNat
  rv64 acc a b := (acc.toNat : Int) + (lo a).toNat * (lo b).toNat + (hi a).toNat * (hi b).toNat
  narrow z := z
  setsOv _ := false

/-- R70: unsigned products subtracted, the low 64 bits kept, OV never written. -/
abbrev umsr64Rule : ExactRule where
  rv32 acc a b := (acc.toNat : Int) - a.toNat * b.toNat
  rv64 acc a b := (acc.toNat : Int) - (lo a).toNat * (lo b).toNat - (hi a).toNat * (hi b).toNat
  narrow z := z
  setsOv _ := false

/-- The rule of each instruction. -/
def ruleOf : Mnemonic → ExactRule
  | .kmar64 => kmar64Rule
  | .kmsr64 => kmsr64Rule
  | .smar64 => smar64Rule
  | .smsr64 => smsr64Rule
  | .ukmar64 => ukmar64Rule
  | .ukmsr64 => ukmsr64Rule
  | .umar64 => umar64Rule
  | .umsr64 => umsr64Rule

/-- The exact result of an instruction at a state, from the accumulator before it. -/
def exactResult (i : Instr) (s : State) (acc : DWord) : Int :=
  match s.core with
  | .rv32 h => (ruleOf i.mnemonic).rv32 acc (h.read s.cfg i.rs1) (h.read s.cfg i.rs2)
  | .rv64 h => (ruleOf i.mnemonic).rv64 acc (h.read s.cfg i.rs1) (h.read s.cfg i.rs2)

/-- The four instructions that may set OV. -/
def isSaturating : Mnemonic → Bool
  | .kmar64 | .kmsr64 | .ukmar64 | .ukmsr64 => true
  | .smar64 | .smsr64 | .umar64 | .umsr64 => false

/-- Register number `k` of an RV32 machine. -/
abbrev reg (c : Config) (h : Hart 32) (k : Nat) : Word32 := h.read c (BitVec.ofNat 5 k)

/-- A register is one of those the accumulator `rd` consists of: the pair 2d, 2d+1 on RV32, `rd` itself on RV64. -/
def InAccumulator (x : Xlen) (rd n : RegNum) : Prop :=
  match x with
  | .rv32 => n.toNat / 2 = rd.toNat / 2
  | .rv64 => n = rd

/-- RV32 with an odd `rd` under `odd_rd = refuse`. -/
def OddRdStops (s : State) (rd : RegNum) : Prop :=
  s.xlen = .rv32 ∧ rd.toNat % 2 = 1 ∧ s.cfg.oddRd = .refuse

/-- RV32 with the pair of registers 0 and 1 under `pair0 = refuse`. -/
def Pair0Stops (s : State) (rd : RegNum) : Prop :=
  s.xlen = .rv32 ∧ rd.toNat / 2 = 0 ∧ s.cfg.pair0 = .refuse

/-- An instruction's whole effect on every form the source gives it. RV64 with any `rd` that is an ordinary
register: `rd` gets the narrowed exact result. RV32 with a pair d from 1 to 15 (`rd` even, or odd with its bit
0 ignored): registers 2d+1 and 2d get its high and low halves. In both the multiplicands and the accumulator are
those before the instruction, OV is set where the rule says and is otherwise as it was, `pc` advances by 4, and no
other register, parameter or byte of memory changes. -/
def EffectOnSourceForms (make : RegNum → RegNum → RegNum → Instr) (r : ExactRule) : Prop :=
  ∀ (rd rs1 rs2 : RegNum) (s : State),
    (∀ h : Hart 64, s.core = .rv64 h → ¬ (s.cfg.x0Hardwired = true ∧ rd = 0) →
      ∃ h' : Hart 64,
        exec (make rd rs1 rs2) s = .next { s with
          core := .rv64 h'
          ov := s.ov || r.setsOv (r.rv64 (h.read s.cfg rd) (h.read s.cfg rs1) (h.read s.cfg rs2)) } ∧
        h'.pc.toNat = (h.pc.toNat + 4) % 2 ^ 64 ∧
        ∀ n : RegNum, h'.read s.cfg n =
          if n = rd then
            BitVec.ofInt 64
              (r.narrow (r.rv64 (h.read s.cfg rd) (h.read s.cfg rs1) (h.read s.cfg rs2)))
          else h.read s.cfg n) ∧
    (∀ (h : Hart 32) (d : Nat) (acc : DWord), s.core = .rv32 h → d = rd.toNat / 2 → d ≠ 0 →
      (rd.toNat % 2 = 1 → s.cfg.oddRd = .ignoreBit0) →
      acc = reg s.cfg h (2 * d + 1) ++ reg s.cfg h (2 * d) →
      ∃ h' : Hart 32,
        exec (make rd rs1 rs2) s = .next { s with
          core := .rv32 h'
          ov := s.ov || r.setsOv (r.rv32 acc (h.read s.cfg rs1) (h.read s.cfg rs2)) } ∧
        h'.pc.toNat = (h.pc.toNat + 4) % 2 ^ 32 ∧
        ∀ n : RegNum, h'.read s.cfg n =
          if n.toNat = 2 * d + 1 then
            hi (BitVec.ofInt 64 (r.narrow (r.rv32 acc (h.read s.cfg rs1) (h.read s.cfg rs2))))
          else if n.toNat = 2 * d then
            lo (BitVec.ofInt 64 (r.narrow (r.rv32 acc (h.read s.cfg rs1) (h.read s.cfg rs2))))
          else h.read s.cfg n)

end Sys2Proof.Statements

open Sys2Proof Sys2Proof.Machine Sys2Proof.Statements

/-! ### The eight instructions -/

/-- R63, on every form the source gives; the forms of register 0 and pair 0 are further statements. -/
def Obligations.Kmar64AddsSignedProductsAndSaturates : Prop :=
  EffectOnSourceForms .kmar64 kmar64Rule

/-- R64, on every form the source gives. -/
def Obligations.Kmsr64SubtractsSignedProductsAndSaturates : Prop :=
  EffectOnSourceForms .kmsr64 kmsr64Rule

/-- SMAR64 on every form the source gives. Keeping the low 64 bits is the spec's decision D25 (log entry 13). -/
def Obligations.Smar64AddsSignedProductsAndWraps : Prop :=
  EffectOnSourceForms .smar64 smar64Rule

/-- SMSR64 on every form the source gives. Keeping the low 64 bits is the spec's decision D25 (log entry 13). -/
def Obligations.Smsr64SubtractsSignedProductsAndWraps : Prop :=
  EffectOnSourceForms .smsr64 smsr64Rule

/-- R67, on every form the source gives. -/
def Obligations.Ukmar64AddsUnsignedProductsAndSaturates : Prop :=
  EffectOnSourceForms .ukmar64 ukmar64Rule

/-- R68, on every form the source gives. -/
def Obligations.Ukmsr64SubtractsUnsignedProductsAndSaturates : Prop :=
  EffectOnSourceForms .ukmsr64 ukmsr64Rule

/-- UMAR64 on every form the source gives. Keeping the low 64 bits is the spec's decision D25 (log entry 13). -/
def Obligations.Umar64AddsUnsignedProductsAndWraps : Prop :=
  EffectOnSourceForms .umar64 umar64Rule

/-- UMSR64 on every form the source gives. Keeping the low 64 bits is the spec's decision D25 (log entry 13). -/
def Obligations.Umsr64SubtractsUnsignedProductsAndWraps : Prop :=
  EffectOnSourceForms .umsr64 umsr64Rule

/-! ### The forms the source does not speak of -/

/-- RV64 with `rd` the constant register 0, all eight: the accumulator reads 0, nothing is written to a register,
OV is still set where the result saturates. The spec's decisions D3 and D27 (log entries 8 and 14). -/
def Obligations.Rv64AccumulatorRegisterZeroKeepsOnlyOv : Prop :=
  ∀ (m : Mnemonic) (rs1 rs2 : RegNum) (s : State) (h : Hart 64),
    s.core = .rv64 h → s.cfg.x0Hardwired = true →
    exec (Instr.make m 0 rs1 rs2) s = .next { s with
      core := .rv64 { h with pc := BitVec.ofNat 64 (h.pc.toNat + 4) }
      ov := s.ov || (ruleOf m).setsOv ((ruleOf m).rv64 0 (h.read s.cfg rs1) (h.read s.cfg rs2)) }

/-- RV32, pair d = 0 under `pair0 = literal`, all eight: the accumulator is `x[1] ++ x[0]`; register 1 gets the high
half, register 0 the low half unless it is the constant. The spec's decision D4 (log entry 9). -/
def Obligations.Rv32PairZeroLiteralUsesRegistersOneAndZero : Prop :=
  ∀ (m : Mnemonic) (rd rs1 rs2 : RegNum) (s : State) (h : Hart 32) (v : DWord) (z : Int),
    s.core = .rv32 h → rd.toNat / 2 = 0 → s.cfg.pair0 = .literal →
    (rd.toNat % 2 = 1 → s.cfg.oddRd = .ignoreBit0) →
    z = (ruleOf m).rv32 (reg s.cfg h 1 ++ reg s.cfg h 0) (h.read s.cfg rs1) (h.read s.cfg rs2) →
    v = BitVec.ofInt 64 ((ruleOf m).narrow z) →
    ∃ h' : Hart 32,
      exec (Instr.make m rd rs1 rs2) s =
        .next { s with core := .rv32 h', ov := s.ov || (ruleOf m).setsOv z } ∧
      h'.pc.toNat = (h.pc.toNat + 4) % 2 ^ 32 ∧
      ∀ n : RegNum, h'.read s.cfg n =
        if n = 1 then hi v
        else if n = 0 then (if s.cfg.x0Hardwired = true then 0 else lo v)
        else h.read s.cfg n

/-- RV32, pair d = 0 under `pair0 = zero_discard`, all eight: the accumulator reads 0, no register is written, OV is
still set where the result saturates. The spec's decision D4 (log entry 9). -/
def Obligations.Rv32PairZeroDiscardKeepsOnlyOv : Prop :=
  ∀ (m : Mnemonic) (rd rs1 rs2 : RegNum) (s : State) (h : Hart 32),
    s.core = .rv32 h → rd.toNat / 2 = 0 → s.cfg.pair0 = .zeroDiscard →
    (rd.toNat % 2 = 1 → s.cfg.oddRd = .ignoreBit0) →
    exec (Instr.make m rd rs1 rs2) s = .next { s with
      core := .rv32 { h with pc := BitVec.ofNat 32 (h.pc.toNat + 4) }
      ov := s.ov || (ruleOf m).setsOv ((ruleOf m).rv32 0 (h.read s.cfg rs1) (h.read s.cfg rs2)) }

/-- Where an instruction stops and where it completes, all eight: it never faults, it is refused exactly in the two
cases of the parameters `odd_rd` and `pair0`, the odd check first, and in every other case it answers a next state.
The spec's decisions D4, D5 and D15 (log entries 9, 10 and 16). -/
def Obligations.ExecStopsExactlyOnRefusedRegisterPairs : Prop :=
  ∀ (i : Instr) (s : State),
    (∀ r, exec i s ≠ .fault r) ∧
    (exec i s = .refused .oddRd ↔ OddRdStops s i.rd) ∧
    (exec i s = .refused .pair0 ↔ Pair0Stops s i.rd ∧ ¬ OddRdStops s i.rd) ∧
    (∀ r, exec i s = .refused r → r = .oddRd ∨ r = .pair0) ∧
    ((∃ t, exec i s = .next t) ↔ ¬ OddRdStops s i.rd ∧ ¬ Pair0Stops s i.rd)

/-! ### What an instruction leaves alone and what it reads -/

/-- The frame of all eight: every byte of memory, the program listing, the parameters and the register width are as
before; every register outside the accumulator is as before; OV is as before for the four that never write it;
`pc` advances by 4 modulo 2^XLEN. -/
def Obligations.ExecChangesOnlyAccumulatorOvAndPc : Prop :=
  ∀ (i : Instr) (s t : State), exec i s = .next t →
    (∀ a, Memory.readByte t.mem a = Memory.readByte s.mem a) ∧ t.listing = s.listing ∧
    t.cfg = s.cfg ∧ t.xlen = s.xlen ∧
    (∀ n, ¬ InAccumulator s.xlen i.rd n → t.regVal n = s.regVal n) ∧
    (isSaturating i.mnemonic = false → t.ov = s.ov) ∧
    t.pcVal = (s.pcVal + 4) % 2 ^ s.xlen.bits

/-- R16: the result depends on the accumulator, `rs1` and `rs2` alone, no other register is written, and on RV32
bit 0 of `rd` takes no part (parameter `odd_rd`). -/
def Obligations.ExecReadsOnlyAccumulatorAndMultiplicands : Prop :=
  (∀ (i : Instr) (s s' t : State), exec i s = .next t → s'.cfg = s.cfg → s'.xlen = s.xlen →
    s'.regVal i.rs1 = s.regVal i.rs1 → s'.regVal i.rs2 = s.regVal i.rs2 →
    (∀ n, InAccumulator s.xlen i.rd n → s'.regVal n = s.regVal n) →
    ∃ t', exec i s' = .next t' ∧
      (∀ n, InAccumulator s.xlen i.rd n → t'.regVal n = t.regVal n) ∧
      (∀ n, ¬ InAccumulator s.xlen i.rd n → t'.regVal n = s'.regVal n) ∧
      (s'.ov = s.ov → t'.ov = t.ov)) ∧
  (∀ (m : Mnemonic) (rd rd' rs1 rs2 : RegNum) (s : State), s.xlen = .rv32 →
    s.cfg.oddRd = .ignoreBit0 → rd'.toNat / 2 = rd.toNat / 2 →
    exec (Instr.make m rd rs1 rs2) s = exec (Instr.make m rd' rs1 rs2) s)

/-- R18: OV after an instruction is OV before it, or 1 where one of the four saturating instructions has an exact
result outside its range; and neither the outcome nor anything but OV depends on OV. -/
def Obligations.OvIsSetOnlyBySaturationAndNeverRead : Prop :=
  (∀ (i : Instr) (s t : State) (acc : DWord), exec i s = .next t → accRead s i.rd = .ok acc →
    t.ov = (s.ov || (ruleOf i.mnemonic).setsOv (exactResult i s acc))) ∧
  (∀ (i : Instr) (s t : State), isSaturating i.mnemonic = false → exec i s = .next t → t.ov = s.ov) ∧
  (∀ (i : Instr) (s : State) (b : Bool),
    (∀ r, exec i s = .refused r ↔ exec i { s with ov := b } = .refused r) ∧
    (∀ t, exec i s = .next t → ∃ c, exec i { s with ov := b } = .next { t with ov := c }))

/-- A run's OV: 1 at the end exactly when it was 1 at the start or some instruction of the run had an exact result
outside its range. -/
def Obligations.OvAfterRunTellsWhetherAnyInstructionSaturated : Prop :=
  ∀ (k : Nat) (s t : State), Sys2Proof.core.run k s = .next t →
    (t.ov = true ↔ s.ov = true ∨
      ∃ (j : Nat) (u : State) (i : Instr) (acc : DWord), j < k ∧ Sys2Proof.core.run j s = .next u ∧
        u.fetch = .ok i ∧ accRead u i.rd = .ok acc ∧
        (ruleOf i.mnemonic).setsOv (exactResult i u acc) = true)

/-- Rs1 and Rs2 may change places in every instruction and on every form. -/
def Obligations.MultiplicandsMayChangePlaces : Prop :=
  ∀ (m : Mnemonic) (rd a b : RegNum) (s : State),
    exec (Instr.make m rd a b) s = exec (Instr.make m rd b a) s

/-! ### Arithmetic -/

/-- R55: the signed product is exact, and its range and both its ends are as stated. -/
def Obligations.SignedProductIsExactWithItsRange : Prop :=
  (∀ a b : Word32, smul32 a b = a.toInt * b.toInt ∧
    -2 ^ 62 + 2 ^ 31 ≤ smul32 a b ∧ smul32 a b ≤ 2 ^ 62) ∧
  smul32 0x80000000 0x7FFFFFFF = -2 ^ 62 + 2 ^ 31 ∧ smul32 0x80000000 0x80000000 = 2 ^ 62

/-- R56: the unsigned product is exact, and its range and both its ends are as stated. -/
def Obligations.UnsignedProductIsExactWithItsRange : Prop :=
  (∀ a b : Word32, umul32 a b = (a.toNat : Int) * (b.toNat : Int) ∧
    0 ≤ umul32 a b ∧ umul32 a b ≤ 2 ^ 64 - 2 ^ 33 + 1) ∧
  umul32 0 0 = 0 ∧ umul32 0xFFFFFFFF 0xFFFFFFFF = 0xFFFFFFFE00000001

/-- R61: the product term at both widths, its RV64 ranges, the one case where the signed sum leaves Q63 by itself,
and that exchanging the halves of both registers changes nothing. -/
def Obligations.ProductTermPerWidthWithItsRanges : Prop :=
  (∀ (s : State) (h : Hart 32) (rs1 rs2 : RegNum), s.core = .rv32 h →
    prodSumS s rs1 rs2 = (h.read s.cfg rs1).toInt * (h.read s.cfg rs2).toInt ∧
    prodSumU s rs1 rs2 = ((h.read s.cfg rs1).toNat : Int) * ((h.read s.cfg rs2).toNat : Int)) ∧
  (∀ (s : State) (h : Hart 64) (rs1 rs2 : RegNum) (a b : DWord), s.core = .rv64 h →
    a = h.read s.cfg rs1 → b = h.read s.cfg rs2 →
    prodSumS s rs1 rs2 = (lo a).toInt * (lo b).toInt + (hi a).toInt * (hi b).toInt ∧
    prodSumU s rs1 rs2 = (lo a).toNat * (lo b).toNat + (hi a).toNat * (hi b).toNat ∧
    -2 ^ 63 + 2 ^ 32 ≤ prodSumS s rs1 rs2 ∧ prodSumS s rs1 rs2 ≤ 2 ^ 63 ∧
    (outsideQ63 (prodSumS s rs1 rs2) = true ↔
      a = 0x8000000080000000 ∧ b = 0x8000000080000000) ∧
    0 ≤ prodSumU s rs1 rs2 ∧ prodSumU s rs1 rs2 ≤ 2 ^ 65 - 2 ^ 34 + 2) ∧
  (∀ a b : DWord, productS .rv64 (lo a ++ hi a) (lo b ++ hi b) = productS .rv64 a b ∧
    productU .rv64 (lo a ++ hi a) (lo b ++ hi b) = productU .rv64 a b)

/-- R57: saturation to Q63 gives the nearest value of the range and reports exactly the values outside it. -/
def Obligations.SaturationToQ63GivesTheNearestValue : Prop :=
  ∀ z : Int, (satQ63 z).1.toInt = toQ63 z ∧ (satQ63 z).2 = outsideQ63 z ∧
    (-2 ^ 63 ≤ z → z ≤ 2 ^ 63 - 1 → (satQ63 z).1 = BitVec.ofInt 64 z)

/-- R58: saturation to U64 gives the nearest value of the range and reports exactly the values outside it; adding
non-negative products cannot pass the lower end and subtracting them cannot pass the upper end. -/
def Obligations.SaturationToU64GivesTheNearestValue : Prop :=
  (∀ z : Int, ((satU64 z).1.toNat : Int) = toU64 z ∧ (satU64 z).2 = outsideU64 z ∧
    (0 ≤ z → z ≤ 2 ^ 64 - 1 → (satU64 z).1 = BitVec.ofInt 64 z)) ∧
  (∀ (s : State) (acc : DWord) (rs1 rs2 : RegNum),
    0 ≤ (acc.toNat : Int) + prodSumU s rs1 rs2 ∧ (acc.toNat : Int) - prodSumU s rs1 rs2 ≤ 2 ^ 64 - 1)

/-- R71: the extremes of the exact integers that the eight meanings narrow, the accumulator and the product term added or
subtracted, for every state; that they are reached; and so that 67 signed bits hold all of them and 66 do not. -/
def Obligations.ExactResultsFitSixtySevenSignedBits : Prop :=
  (∀ (s : State) (acc : DWord) (rs1 rs2 : RegNum) (z : Int),
    z = signed acc + prodSumS s rs1 rs2 ∨ z = signed acc - prodSumS s rs1 rs2 ∨
      z = unsigned acc + prodSumU s rs1 rs2 ∨ z = unsigned acc - prodSumU s rs1 rs2 →
    -2 ^ 66 ≤ z ∧ z < 2 ^ 66) ∧
  (∀ (s : State) (acc : DWord) (rs1 rs2 : RegNum) (z : Int),
    z = signed acc + prodSumS s rs1 rs2 ∨ z = signed acc - prodSumS s rs1 rs2 →
    (s.xlen = .rv32 → -2 ^ 63 - 2 ^ 62 ≤ z ∧ z ≤ 2 ^ 63 - 1 + 2 ^ 62) ∧
    (s.xlen = .rv64 → -2 ^ 64 ≤ z ∧ z ≤ 2 ^ 64 - 1)) ∧
  (∀ (s : State) (acc : DWord) (rs1 rs2 : RegNum), s.xlen = .rv64 →
    unsigned acc + prodSumU s rs1 rs2 ≤ 2 ^ 64 - 1 + 2 ^ 65 - 2 ^ 34 + 2 ∧
    -(2 ^ 65 - 2 ^ 34 + 2) ≤ unsigned acc - prodSumU s rs1 rs2) ∧
  (∀ (s : State) (h : Hart 32) (rs1 rs2 : RegNum), s.core = .rv32 h →
    h.read s.cfg rs1 = 0x80000000 → h.read s.cfg rs2 = 0x80000000 →
    signed (0x8000000000000000 : DWord) - prodSumS s rs1 rs2 = -2 ^ 63 - 2 ^ 62 ∧
    signed (0x7FFFFFFFFFFFFFFF : DWord) + prodSumS s rs1 rs2 = 2 ^ 63 - 1 + 2 ^ 62) ∧
  (∀ (s : State) (h : Hart 64) (rs1 rs2 : RegNum), s.core = .rv64 h →
    h.read s.cfg rs1 = 0x8000000080000000 → h.read s.cfg rs2 = 0x8000000080000000 →
    signed (0x8000000000000000 : DWord) - prodSumS s rs1 rs2 = -2 ^ 64 ∧
    signed (0x7FFFFFFFFFFFFFFF : DWord) + prodSumS s rs1 rs2 = 2 ^ 64 - 1) ∧
  (∀ (s : State) (h : Hart 64) (rs1 rs2 : RegNum), s.core = .rv64 h →
    h.read s.cfg rs1 = 0xFFFFFFFFFFFFFFFF → h.read s.cfg rs2 = 0xFFFFFFFFFFFFFFFF →
    unsigned (0xFFFFFFFFFFFFFFFF : DWord) + prodSumU s rs1 rs2 = 2 ^ 64 - 1 + 2 ^ 65 - 2 ^ 34 + 2 ∧
    unsigned (0 : DWord) - prodSumU s rs1 rs2 = -(2 ^ 65 - 2 ^ 34 + 2) ∧
    2 ^ 65 - 1 < unsigned (0xFFFFFFFFFFFFFFFF : DWord) + prodSumU s rs1 rs2)

/-- The accumulator's signedness makes no difference to the low 64 bits; the product's does: the difference of the two
products, when it vanishes modulo 2^64, and that SMAR64 and UMAR64 agree on RV32 exactly then. -/
def Obligations.SignednessMattersOnlyInTheProduct : Prop :=
  (∀ (acc : DWord) (p : Int), BitVec.ofInt 64 (acc.toInt + p) = BitVec.ofInt 64 ((acc.toNat : Int) + p)) ∧
  (∀ a b : Word32, umul32 a b - smul32 a b =
    2 ^ 32 * ((a.getLsbD 31).toNat * b.toNat + (b.getLsbD 31).toNat * a.toNat) -
      2 ^ 64 * ((a.getLsbD 31).toNat * (b.getLsbD 31).toNat)) ∧
  (∀ (rd rs1 rs2 : RegNum) (s : State) (h : Hart 32) (a b : Word32), s.core = .rv32 h →
    rd.toNat / 2 ≠ 0 → (rd.toNat % 2 = 1 → s.cfg.oddRd = .ignoreBit0) →
    a = h.read s.cfg rs1 → b = h.read s.cfg rs2 →
    (exec (.smar64 rd rs1 rs2) s = exec (.umar64 rd rs1 rs2) s ↔
      ((a.getLsbD 31).toNat * b.toNat + (b.getLsbD 31).toNat * a.toNat) % 2 ^ 32 = 0))

/-- R74: on RV64 the four saturating instructions test the one exact sum of the accumulator and both lane products, for
every accumulator register and whatever the sum after the first lane: in range the result is that sum and OV is as
before; out of range it is the nearest value and OV is 1. That OV is still set where `rd` is the constant register 0,
whose write is dropped, is R60's decision D27 (log entry 14). -/
def Obligations.Rv64SaturatesOnceAfterBothLanes : Prop :=
  ∀ (m : Mnemonic) (rd rs1 rs2 : RegNum) (s : State) (h : Hart 64) (z : Int),
    isSaturating m = true → s.core = .rv64 h →
    z = (ruleOf m).rv64 (h.read s.cfg rd) (h.read s.cfg rs1) (h.read s.cfg rs2) →
    ∃ h' : Hart 64, ∃ b : Bool,
      exec (Instr.make m rd rs1 rs2) s = .next { s with core := .rv64 h', ov := b } ∧
      (¬ (s.cfg.x0Hardwired = true ∧ rd = 0) →
        h'.read s.cfg rd = BitVec.ofInt 64 ((ruleOf m).narrow z)) ∧
      ((ruleOf m).setsOv z = false → (ruleOf m).narrow z = z ∧ b = s.ov) ∧
      ((ruleOf m).setsOv z = true → (ruleOf m).narrow z ≠ z ∧ b = true)

/-! ### Registers -/

/-- Register 0 under `x0_hardwired` and without it, and that a register write changes that register alone. The
spec's decision D3 (log entry 8). -/
def Obligations.RegisterZeroIsConstantWhenHardwired : Prop :=
  ∀ (w : Nat) (c : Config) (h : Hart w) (n : RegNum) (v : BitVec w),
    (c.x0Hardwired = true → h.read c 0 = 0 ∧ h.write c 0 v = h) ∧
    (c.x0Hardwired = false → (h.write c 0 v).read c 0 = v) ∧
    (n ≠ 0 → (h.write c n v).read c n = v) ∧
    (∀ k, k ≠ n → (h.write c n v).read c k = h.read c k)

/-! ### Encoding -/

/-- Decoding and encoding agree, both ways: every instruction with every operand comes back from its word, its word
alone decodes to it, and its four bytes decode to it whatever follows. -/
def Obligations.DecodeAndEncodeAgree : Prop :=
  (∀ i : Instr, decodeWord (encode i) = .ok i) ∧
  (∀ (w : Word32) (i : Instr), decodeWord w = .ok i → encode i = w) ∧
  (∀ (i : Instr) (rest : List Byte), decodeBytes (bytesOfWord (encode i) ++ rest) = .ok (i, rest)) ∧
  (∀ i : Instr, decodeTableWord 32 (encode i).toNat = some i)

/-- The eight match words as the table prints them, with the register numbers in their fields. -/
def Obligations.EncodeIsTheTablesWord : Prop :=
  ∀ rd rs1 rs2 : RegNum, ∀ f : Word32,
    f = rs2.setWidth 32 <<< 20 ||| rs1.setWidth 32 <<< 15 ||| rd.setWidth 32 <<< 7 →
    encode (.kmar64 rd rs1 rs2) = 0x94001077 ||| f ∧ encode (.kmsr64 rd rs1 rs2) = 0x96001077 ||| f ∧
    encode (.smar64 rd rs1 rs2) = 0x84001077 ||| f ∧ encode (.smsr64 rd rs1 rs2) = 0x86001077 ||| f ∧
    encode (.ukmar64 rd rs1 rs2) = 0xB4001077 ||| f ∧ encode (.ukmsr64 rd rs1 rs2) = 0xB6001077 ||| f ∧
    encode (.umar64 rd rs1 rs2) = 0xA4001077 ||| f ∧ encode (.umsr64 rd rs1 rs2) = 0xA6001077 ||| f

/-- The decoder rejects exactly the words whose masked bits are none of the eight printed match words. -/
def Obligations.DecoderRejectsExactlyTheOtherWords : Prop :=
  ∀ w : Word32, decodeWord w = .error .notInScope ↔
    ∀ m ∈ ([0x84001077, 0x86001077, 0x94001077, 0x96001077, 0xA4001077, 0xA6001077, 0xB4001077,
      0xB6001077] : List Word32), w &&& 0xFE00707F ≠ m

/-- Words of 95_test_vectors.md section 2 and 30_encoding.md section 6, one of each mnemonic, and three that decode
to none. -/
def Obligations.SampleWordsDecodeAsPrinted : Prop :=
  decodeWord 0x94D61577 = .ok (.kmar64 10 12 13) ∧ decodeWord 0x96849477 = .ok (.kmsr64 8 9 8) ∧
  decodeWord 0x84731277 = .ok (.smar64 4 6 7) ∧ decodeWord 0x86D61577 = .ok (.smsr64 10 12 13) ∧
  decodeWord 0xB4C61677 = .ok (.ukmar64 12 12 12) ∧ decodeWord 0xB6D61577 = .ok (.ukmsr64 10 12 13) ∧
  decodeWord 0xA4209F77 = .ok (.umar64 30 1 2) ∧ decodeWord 0xA7FF9FF7 = .ok (.umsr64 31 31 31) ∧
  decodeWord 0x94D60577 = .error .notInScope ∧ decodeWord 0x14D61577 = .error .notInScope ∧
  decodeWord 0x00000013 = .error .notInScope

/-- The textual level: an instruction's record reads back as it, and a record is an instruction exactly when it is
well formed. That a record in lower case is read too and that a number above 31 is no operand is the model's
(log entry 19). -/
def Obligations.TextualRecordsReadBack : Prop :=
  (∀ i : Instr, i.toAsmLine.toInstr = .ok i ∧ i.toAsmLine.wellFormed = true) ∧
  (∀ l : AsmLine, l.wellFormed = true ↔ ∃ i, l.toInstr = .ok i) ∧
  (∀ (l : AsmLine) (i : Instr), l.toInstr = .ok i →
    l.rd = i.rd.toNat ∧ l.rs1 = i.rs1.toNat ∧ l.rs2 = i.rs2.toNat ∧
      (l.mnemonic = i.mnemonic.name ∨ l.mnemonic = i.mnemonic.lowerName))

/-! ### Step, reset and run -/

/-- At the binary level a step with `pc` in the text, on four bytes that decode to `i`, is `exec i`. -/
def Obligations.StepRunsTheDecodedInstruction : Prop :=
  ∀ (s : State) (i : Instr) (b0 b1 b2 b3 : Byte), s.cfg.binaryLevel = true → s.pcVal % 4 = 0 →
    s.cfg.textBase ≤ s.pcVal → s.pcVal < s.cfg.textEnd →
    Memory.readByte s.mem s.pcVal = some b0 → Memory.readByte s.mem (s.pcVal + 1) = some b1 →
    Memory.readByte s.mem (s.pcVal + 2) = some b2 → Memory.readByte s.mem (s.pcVal + 3) = some b3 →
    decodeBytes [b0, b1, b2, b3] = .ok (i, []) → step s = exec i s

/-- At the textual level a step with `pc` in the text is `exec` of the record at `(pc - text_base) / 4`. -/
def Obligations.StepRunsTheListedInstruction : Prop :=
  ∀ (s : State) (i : Instr) (l : AsmLine), s.cfg.binaryLevel = false → s.pcVal % 4 = 0 →
    s.cfg.textBase ≤ s.pcVal → s.pcVal < s.cfg.textEnd →
    s.listing[(s.pcVal - s.cfg.textBase) / 4]? = some l → l.toInstr = .ok i → step s = exec i s

/-- Placing an instruction's word for the next step makes the next step run it. Of the state it changes the four bytes at
`pc` and, of the parameters, the ends of the text, widened just enough, and the level; memory stays canonical. The
placing is the model's (log entry 5). -/
def Obligations.PlacedWordIsWhatTheNextStepRuns : Prop :=
  ∀ (s p : State) (i : Instr), s.pcVal % 4 = 0 → p = s.withFetchWord 32 (encode i).toNat →
    step p = exec i p ∧ p.core = s.core ∧ p.ov = s.ov ∧ p.listing = s.listing ∧
      p.cfg = { s.cfg with
        textBase := min s.cfg.textBase s.pcVal
        textEnd := max s.cfg.textEnd (s.pcVal + 4)
        binaryLevel := true } ∧
      (∀ a, a < s.pcVal ∨ s.pcVal + 4 ≤ a → Memory.readByte p.mem a = Memory.readByte s.mem a) ∧
      (Memory.wf s.mem = true → Memory.wf p.mem = true)

/-- When a step answers each refusal, and that it never faults: final at `text_end`; then a bad fetch; then a word or
record out of scope; then the two register refusals. The order is the spec's decision D15 (log entry 16). The model's own:
that the end of the run is a refusal (log entry 7), that a text address with no byte is a bad fetch (log entry 6), that an
index beyond the listing is one (log entry 20), and that a record in lower case is read and one with a number above 31
is out of scope (log entry 19). -/
def Obligations.StepStopsExactlyAsListed : Prop :=
  ∀ s : State,
    (∀ r, step s ≠ .fault r) ∧ (∀ m, step s ≠ .refused (.notModelled m)) ∧
    (step s = .refused .runFinal ↔ s.pcVal = s.cfg.textEnd) ∧
    (step s = .refused .badFetch ↔ s.pcVal ≠ s.cfg.textEnd ∧
      (s.pcVal % 4 ≠ 0 ∨ s.pcVal < s.cfg.textBase ∨ s.cfg.textEnd ≤ s.pcVal ∨
        (s.cfg.binaryLevel = true ∧ ∃ j, j < 4 ∧ Memory.readByte s.mem (s.pcVal + j) = none) ∨
        (s.cfg.binaryLevel = false ∧ s.listing.length ≤ (s.pcVal - s.cfg.textBase) / 4))) ∧
    (step s = .refused .notInScope ↔ s.pcVal % 4 = 0 ∧ s.cfg.textBase ≤ s.pcVal ∧
      s.pcVal < s.cfg.textEnd ∧
      ((s.cfg.binaryLevel = true ∧ ∃ w, Memory.readWord s.mem s.pcVal = some w ∧
          decodeWord w = .error .notInScope) ∨
        (s.cfg.binaryLevel = false ∧ ∃ l, s.listing[(s.pcVal - s.cfg.textBase) / 4]? = some l ∧
          l.wellFormed = false))) ∧
    (step s = .refused .oddRd ↔ s.pcVal ≠ s.cfg.textEnd ∧ ∃ i, s.fetch = .ok i ∧ OddRdStops s i.rd) ∧
    (step s = .refused .pair0 ↔ s.pcVal ≠ s.cfg.textEnd ∧
      ∃ i, s.fetch = .ok i ∧ Pair0Stops s i.rd ∧ ¬ OddRdStops s i.rd)

/-- Every step from a well-placed state leads to a well-placed state: the parameters stay as they should be, memory
stays canonical, and `pc` stays a multiple of 4 from `text_base` to `text_end`. -/
def Obligations.EveryStepKeepsTheStateWellPlaced : Prop :=
  ∀ s t : State, s.inv = true → step s = .next t → t.inv = true

/-- The machine is well placed right after reset, and so is every machine with sound parameters that is reset to
`text_base`, at either width. -/
def Obligations.ResetIsWellPlaced : Prop :=
  State.reset.inv = true ∧
  ∀ (x : Xlen) (c : Config), c.wellFormed x = true → c.resetPc = c.textBase →
    (State.resetFor x c).inv = true ∧ (State.resetFor x c).launched = true

/-- What reset leaves, for every width and every sound configuration: register 0 reads zero when it is the constant,
and `pc` is `reset_pc`. What the other registers and OV hold is the model's choice (log entries 3 and 4) and no
part of this statement. -/
def Obligations.ResetSetsPcAndConstantRegister : Prop :=
  ∀ (x : Xlen) (c : Config), c.wellFormed x = true →
    (State.resetFor x c).pcVal = c.resetPc ∧ (State.resetFor x c).xlen = x ∧
    (State.resetFor x c).cfg = c ∧ (c.x0Hardwired = true → (State.resetFor x c).regVal 0 = 0)

/-- From a well-placed state with its text present no run of any length meets a bad fetch or faults. -/
def Obligations.RunsOverPresentTextNeverFetchBadly : Prop :=
  ∀ (s : State) (k : Nat), s.inv = true → s.TextPresent →
    Sys2Proof.core.run k s ≠ .refused .badFetch ∧ ∀ r, Sys2Proof.core.run k s ≠ .fault r

/-- A launched straight-line program whose every instruction decodes and is not one of the refused forms runs to its
end: after j steps `pc` is `text_base + 4 * j`, and after as many steps as it has instructions the run is final,
with memory, listing and parameters as they were. -/
def Obligations.LaunchedProgramRunsToItsEnd : Prop :=
  ∀ s : State, s.launched = true →
    (∀ k, k < s.textLength → ∃ i, s.instrAt k = .ok i ∧ ¬ OddRdStops s i.rd ∧ ¬ Pair0Stops s i.rd) →
    (∀ j, j ≤ s.textLength → ∃ u : State, Sys2Proof.core.run j s = .next u ∧
      u.pcVal = s.cfg.textBase + 4 * j ∧ (u.isFinal = true ↔ j = s.textLength) ∧
      u.mem = s.mem ∧ u.listing = s.listing ∧ u.cfg = s.cfg)

/-- The textual and the binary level are one machine: from a well-placed state that holds the same program at both,
runs of every length at the two levels have the same outcome. -/
def Obligations.TextualAndBinaryLevelsRunAlike : Prop :=
  ∀ (s : State) (k : Nat), s.inv = true → s.SameProgram →
    Sys2Proof.core.run k (s.atLevel true) =
      onNext (fun t => t.atLevel true) (Sys2Proof.core.run k (s.atLevel false))

/-- Two instructions in a row with one `rd`, any two of the eight and every form: the second step completes, and the
accumulator and OV that it starts from are those the first left. Where the accumulator is an ordinary register or a pair
d from 1 to 15, both values are the rules'; and so SMAR64 twice, its multiplicands outside the accumulator, adds its
product twice. That no gap is needed is R119's decision D22 (log entry 23); the low 64 bits of the wrapping four
are D25's (log entry 13). -/
def Obligations.SecondAccumulationReadsTheFirst : Prop :=
  (∀ (s t : State) (i j : Instr) (acc : DWord), step s = .next t → s.fetch = .ok i → t.fetch = .ok j →
    j.rd = i.rd → accRead s i.rd = .ok acc →
    ∃ (u : State) (acc1 acc2 : DWord), step t = .next u ∧
      accRead t i.rd = .ok acc1 ∧ accRead u i.rd = .ok acc2 ∧
      u.ov = (s.ov || (ruleOf i.mnemonic).setsOv (exactResult i s acc)
        || (ruleOf j.mnemonic).setsOv (exactResult j t acc1)) ∧
      ((s.xlen = .rv64 → ¬ (s.cfg.x0Hardwired = true ∧ i.rd = 0)) → (s.xlen = .rv32 → i.rd.toNat / 2 ≠ 0) →
        acc1 = BitVec.ofInt 64 ((ruleOf i.mnemonic).narrow (exactResult i s acc)) ∧
        acc2 = BitVec.ofInt 64 ((ruleOf j.mnemonic).narrow (exactResult j t acc1)))) ∧
  (∀ (s t : State) (rd rs1 rs2 : RegNum) (acc : DWord), step s = .next t →
    s.fetch = .ok (.smar64 rd rs1 rs2) → t.fetch = .ok (.smar64 rd rs1 rs2) →
    ¬ InAccumulator s.xlen rd rs1 → ¬ InAccumulator s.xlen rd rs2 →
    (s.xlen = .rv64 → ¬ (s.cfg.x0Hardwired = true ∧ rd = 0)) →
    (s.xlen = .rv32 → rd.toNat / 2 ≠ 0) →
    accRead s rd = .ok acc →
    ∃ u, step t = .next u ∧
      accRead u rd = .ok (BitVec.ofInt 64 (acc.toInt + 2 * prodSumS s rs1 rs2)))

/-! ### The C intrinsics -/

/-- Each intrinsic returns what its instruction leaves in the accumulator and reports what it does to OV, and its value
is the rule's; at both widths. The reading of a call as one instruction is the spec's inference (log entry 21). -/
def Obligations.IntrinsicsReturnWhatTheInstructionsLeave : Prop :=
  ∀ (m : Mnemonic) (rd rs1 rs2 : RegNum) (s : State),
    (∀ (h : Hart 64) (t a b : DWord), s.core = .rv64 h → ¬ (s.cfg.x0Hardwired = true ∧ rd = 0) →
      t = h.read s.cfg rd → a = h.read s.cfg rs1 → b = h.read s.cfg rs2 →
      (rvIntrinsic m .rv64 t a b).1 = BitVec.ofInt 64 ((ruleOf m).narrow ((ruleOf m).rv64 t a b)) ∧
      ∃ u, exec (Instr.make m rd rs1 rs2) s = .next u ∧
        accRead u rd = .ok (rvIntrinsic m .rv64 t a b).1 ∧
        u.ov = (s.ov || (rvIntrinsic m .rv64 t a b).2)) ∧
    (∀ (h : Hart 32) (t : DWord) (a b : Word32), s.core = .rv32 h → rd.toNat / 2 ≠ 0 →
      (rd.toNat % 2 = 1 → s.cfg.oddRd = .ignoreBit0) →
      t = reg s.cfg h (2 * (rd.toNat / 2) + 1) ++ reg s.cfg h (2 * (rd.toNat / 2)) →
      a = h.read s.cfg rs1 → b = h.read s.cfg rs2 →
      (rvIntrinsic m .rv32 t a b).1 = BitVec.ofInt 64 ((ruleOf m).narrow ((ruleOf m).rv32 t a b)) ∧
      ∃ u, exec (Instr.make m rd rs1 rs2) s = .next u ∧
        accRead u rd = .ok (rvIntrinsic m .rv32 t a b).1 ∧
        u.ov = (s.ov || (rvIntrinsic m .rv32 t a b).2))
end

