-- ==== Sys2Proof/Laws/Decode.lean ====
section
/-! SUPPORT. Lemmas about the fields of an encoded word. -/

namespace Sys2Proof

/-- The eight match words as rule R44 prints them. -/
theorem matchWord_values :
    Mnemonic.all.map Mnemonic.matchWord =
      [0x94001077, 0x96001077, 0x84001077, 0x86001077, 0xB4001077, 0xB6001077, 0xA4001077,
        0xA6001077] := by decide

/-- Rule R45: the eight match values are pairwise different. -/
theorem matchWord_injective {m n : Mnemonic} (h : m.matchWord = n.matchWord) : m = n := by
  revert h; cases m <;> cases n <;> decide

/-- An instruction is its name with its operands. -/
theorem Instr.make_eta (i : Instr) : Instr.make i.mnemonic i.rd i.rs1 i.rs2 = i := by
  cases i <;> rfl

@[simp] theorem Instr.make_mnemonic (m : Mnemonic) (rd a b : RegNum) :
    (Instr.make m rd a b).mnemonic = m := by cases m <;> rfl

@[simp] theorem Instr.make_rd (m : Mnemonic) (rd a b : RegNum) : (Instr.make m rd a b).rd = rd := by
  cases m <;> rfl

@[simp] theorem Instr.make_rs1 (m : Mnemonic) (rd a b : RegNum) : (Instr.make m rd a b).rs1 = a := by
  cases m <;> rfl

@[simp] theorem Instr.make_rs2 (m : Mnemonic) (rd a b : RegNum) : (Instr.make m rd a b).rs2 = b := by
  cases m <;> rfl

/-- The bits of a zero-extended register number moved to a field. -/
theorem getLsbD_field (r : RegNum) (k i : Nat) (hi : i < 32) :
    (r.setWidth 32 <<< k).getLsbD i = (decide (k ≤ i) && r.getLsbD (i - k)) := by
  rw [BitVec.getLsbD_shiftLeft, BitVec.getLsbD_setWidth]
  by_cases hk : k ≤ i
  · simp [hk, hi, show i - k < 32 by omega, show ¬ i < k by omega]
  · simp [hk, show i < k by omega]

/-- The bits of an encoded word, field by field. -/
theorem getLsbD_encode (i : Instr) (k : Nat) (hk : k < 32) :
    (encode i).getLsbD k = (i.mnemonic.matchWord.getLsbD k ||
      (decide (20 ≤ k) && i.rs2.getLsbD (k - 20)) || (decide (15 ≤ k) && i.rs1.getLsbD (k - 15)) ||
      (decide (7 ≤ k) && i.rd.getLsbD (k - 7))) := by
  simp only [encode, BitVec.getLsbD_or, getLsbD_field _ _ _ hk]

end Sys2Proof
end

