-- ==== Sys2Proof/Laws/State.lean ====
section
/-! SUPPORT. One lemma per field per update of the state, each true by unfolding the update once. -/

namespace Sys2Proof.Machine

variable {w : Nat} (c : Config) (h : Hart w) (s : State)

@[simp] theorem Hart.advance_x : h.advance.x = h.x := rfl

@[simp] theorem Hart.advance_pc : h.advance.pc = toBits w (unsigned h.pc + 4) := rfl

@[simp] theorem Hart.read_advance (n : RegNum) : h.advance.read c n = h.read c n := rfl

@[simp] theorem Hart.write_pc (n : RegNum) (v : BitVec w) : (h.write c n v).pc = h.pc := by
  unfold Hart.write; split <;> rfl

@[simp] theorem State.advance_ov : s.advance.ov = s.ov := by
  unfold State.advance; split <;> rfl

@[simp] theorem State.advance_cfg : s.advance.cfg = s.cfg := by
  unfold State.advance; split <;> rfl

@[simp] theorem State.advance_mem : s.advance.mem = s.mem := by
  unfold State.advance; split <;> rfl

@[simp] theorem State.advance_listing : s.advance.listing = s.listing := by
  unfold State.advance; split <;> rfl

@[simp] theorem State.advance_xlen : s.advance.xlen = s.xlen := by
  unfold State.advance State.xlen; cases s.core <;> rfl

@[simp] theorem State.advance_regVal (n : RegNum) : s.advance.regVal n = s.regVal n := by
  unfold State.advance State.regVal; cases s.core <;> rfl

@[simp] theorem State.setOvIf_ov (b : Bool) : (s.setOvIf b).ov = (s.ov || b) := by
  cases b <;> simp [State.setOvIf]

@[simp] theorem State.setOvIf_core (b : Bool) : (s.setOvIf b).core = s.core := by
  cases b <;> rfl

@[simp] theorem State.setOvIf_cfg (b : Bool) : (s.setOvIf b).cfg = s.cfg := by
  cases b <;> rfl

@[simp] theorem State.setOvIf_mem (b : Bool) : (s.setOvIf b).mem = s.mem := by
  cases b <;> rfl

@[simp] theorem State.setOvIf_listing (b : Bool) : (s.setOvIf b).listing = s.listing := by
  cases b <;> rfl

@[simp] theorem State.withFetchWord_core (nbits v : Nat) : (s.withFetchWord nbits v).core = s.core := rfl

@[simp] theorem State.withFetchWord_ov (nbits v : Nat) : (s.withFetchWord nbits v).ov = s.ov := rfl

@[simp] theorem State.withFetchWord_listing (nbits v : Nat) :
    (s.withFetchWord nbits v).listing = s.listing := rfl

@[simp] theorem State.withFetchWord_pcVal (nbits v : Nat) :
    (s.withFetchWord nbits v).pcVal = s.pcVal := rfl

@[simp] theorem State.atLevel_core (b : Bool) : (s.atLevel b).core = s.core := rfl

@[simp] theorem State.atLevel_ov (b : Bool) : (s.atLevel b).ov = s.ov := rfl

@[simp] theorem State.atLevel_mem (b : Bool) : (s.atLevel b).mem = s.mem := rfl

@[simp] theorem State.atLevel_listing (b : Bool) : (s.atLevel b).listing = s.listing := rfl

@[simp] theorem State.atLevel_pcVal (b : Bool) : (s.atLevel b).pcVal = s.pcVal := rfl

@[simp] theorem State.atLevel_binaryLevel (b : Bool) : (s.atLevel b).cfg.binaryLevel = b := rfl

/-- Two writes of the configuration's level leave the second. -/
theorem State.atLevel_atLevel (a b : Bool) : (s.atLevel a).atLevel b = s.atLevel b := rfl

/-- Rule R17's sum wraps at the top of the address space. -/
theorem toNat_toBits_add_four {n : Nat} (p : BitVec n) :
    (toBits n (unsigned p + 4)).toNat = (p.toNat + 4) % 2 ^ n := by
  rw [BitVec.toNat_ofInt]
  have : (unsigned p + 4 : Int) % ((2 ^ n : Nat) : Int) = (((p.toNat + 4) % 2 ^ n : Nat) : Int) := by
    push_cast; rfl
  rw [this, Int.toNat_natCast]

/-- The program counter after an advance, at the machine's width (rule R17). -/
theorem State.advance_pcVal : s.advance.pcVal = (s.pcVal + 4) % 2 ^ s.xlen.bits := by
  unfold State.advance State.pcVal State.xlen
  cases s.core <;> exact toNat_toBits_add_four _

end Sys2Proof.Machine
end

