-- ==== Sys2Proof/Laws/Operands.lean ====
section
/-! SUPPORT. What a register write changes, which registers an accumulator is, and what one accumulator access
can do. -/

namespace Sys2Proof.Machine

variable {w : Nat} {c : Config} {h : Hart w}

/-- Rule R11: the constant register reads as zero. -/
theorem Hart.read_zeroReg {n : RegNum} (hz : isZeroReg c n = true) : h.read c n = 0 := by
  simp [Hart.read, hz]

/-- A read after a write: the written register gives the value written, but for the constant register, and
every other register reads as before. -/
theorem Hart.read_write (n k : RegNum) (v : BitVec w) :
    (h.write c n v).read c k = if k = n ∧ isZeroReg c n = false then v else h.read c k := by
  by_cases hz : isZeroReg c n = true
  · simp [Hart.write, hz]
  · simp only [Bool.not_eq_true] at hz
    by_cases hk : k = n
    · subst hk
      simp [Hart.write, Hart.read, hz]
    · have : n.toNat ≠ k.toNat := fun e => hk (BitVec.eq_of_toNat_eq e.symm)
      simp [Hart.write, Hart.read, hz, hk, this]

/-- Rule R46: the pair number is the register number without its bit 0. -/
theorem pairNum_toNat (rd : RegNum) : (pairNum rd).toNat = rd.toNat / 2 := by
  have := rd.isLt
  simp only [pairNum, BitVec.extractLsb'_toNat, Nat.shiftRight_eq_div_pow]
  omega

/-- Rule R12: the even register of pair d is register 2d. -/
theorem evenReg_toNat (d : BitVec 4) : (evenReg d).toNat = 2 * d.toNat := by
  simp only [evenReg, BitVec.toNat_append, Nat.shiftLeft_eq]
  rw [← Nat.shiftLeft_eq, ← Nat.shiftLeft_add_eq_or_of_lt (by decide)]
  simp [Nat.shiftLeft_eq]; omega

/-- Rule R12: the odd register of pair d is register 2d+1. -/
theorem oddReg_toNat (d : BitVec 4) : (oddReg d).toNat = 2 * d.toNat + 1 := by
  simp only [oddReg, BitVec.toNat_append]
  rw [← Nat.shiftLeft_add_eq_or_of_lt (by decide)]
  simp [Nat.shiftLeft_eq]; omega

/-- The pairs other than d = 0 do not hold register 0. -/
theorem evenReg_ne_zero {d : BitVec 4} (hd : d ≠ 0) : evenReg d ≠ 0 := by
  intro e
  have := congrArg BitVec.toNat e
  rw [evenReg_toNat] at this
  exact hd (BitVec.eq_of_toNat_eq (by simpa using this))

/-- No odd register is register 0. -/
theorem oddReg_ne_zero (d : BitVec 4) : oddReg d ≠ 0 := by
  intro e
  have := congrArg BitVec.toNat e
  rw [oddReg_toNat] at this
  simp at this

/-- The two registers of a pair differ. -/
theorem oddReg_ne_evenReg (d : BitVec 4) : oddReg d ≠ evenReg d := by
  intro e
  have := congrArg BitVec.toNat e
  rw [evenReg_toNat, oddReg_toNat] at this
  omega

/-- A register that is not register 0 is no constant. -/
theorem isZeroReg_of_ne {n : RegNum} (hn : n ≠ 0) : isZeroReg c n = false := by
  simp only [isZeroReg, Bool.and_eq_false_iff]
  exact .inr (beq_false_of_ne hn)

/-- Rule R12: the pair as the spec spells it is the high half over the low half. -/
theorem highElement_append_lowElement (v : DWord) : highElement v ++ lowElement v = v := by
  ext i hi
  simp only [highElement, lowElement, ← BitVec.getLsbD_eq_getElem, BitVec.getLsbD_append,
    BitVec.getLsbD_extractLsb']
  by_cases h32 : i < 32
  · simp [h32]
  · simp [h32, show i - 32 < 32 by omega, show 32 + (i - 32) = i by omega]

/-- Everything a pair read can answer (rule R13). -/
theorem pairRead_cases (c : Config) (h : Hart 32) (d : BitVec 4) :
    (d = 0 ∧ c.pair0 = .refuse ∧ pairRead c h d = .error .pair0) ∨
    (d = 0 ∧ c.pair0 = .literal ∧ pairRead c h d = .ok (h.read c 1 ++ h.read c 0)) ∨
    (d = 0 ∧ c.pair0 = .zeroDiscard ∧ pairRead c h d = .ok 0) ∨
    (d ≠ 0 ∧ pairRead c h d = .ok (h.read c (oddReg d) ++ h.read c (evenReg d))) := by
  unfold pairRead
  by_cases hd : d = 0
  · cases hp : c.pair0 <;> simp [hd]
  · exact .inr (.inr (.inr ⟨hd, if_neg hd⟩))

/-- Everything a pair write can answer (rule R14). -/
theorem pairWrite_cases (c : Config) (h : Hart 32) (d : BitVec 4) (v : DWord) :
    (d = 0 ∧ c.pair0 = .refuse ∧ pairWrite c h d v = .error .pair0) ∨
    (d = 0 ∧ c.pair0 = .literal ∧
      pairWrite c h d v = .ok ((h.write c 1 (highElement v)).write c 0 (lowElement v))) ∨
    (d = 0 ∧ c.pair0 = .zeroDiscard ∧ pairWrite c h d v = .ok h) ∨
    (d ≠ 0 ∧ pairWrite c h d v =
      .ok ((h.write c (oddReg d) (highElement v)).write c (evenReg d) (lowElement v))) := by
  unfold pairWrite
  by_cases hd : d = 0
  · cases hp : c.pair0 <;> simp [hd]
  · exact .inr (.inr (.inr ⟨hd, if_neg hd⟩))

end Sys2Proof.Machine
end

