-- ==== Sys2Proof/Laws/Exec.lean ====
section
/-! SUPPORT. What one execution can do: every instruction is `accumulate` over its own narrowing, and
`accumulate` answers one of the six cases below. -/

namespace Sys2Proof.Machine

/-- The narrowing of an instruction at a state: from the accumulator before it to the bits written and whether they
are saturated (rules R63 to R70). -/
def narrowing (i : Instr) (s : State) (acc : DWord) : DWord × Bool :=
  match i with
  | .kmar64 _ a b => satQ63 (signed acc + prodSumS s a b)
  | .kmsr64 _ a b => satQ63 (signed acc - prodSumS s a b)
  | .smar64 _ a b => wrap64 (signed acc + prodSumS s a b)
  | .smsr64 _ a b => wrap64 (signed acc - prodSumS s a b)
  | .ukmar64 _ a b => satU64 (unsigned acc + prodSumU s a b)
  | .ukmsr64 _ a b => satU64 (unsigned acc - prodSumU s a b)
  | .umar64 _ a b => wrap64 (unsigned acc + prodSumU s a b)
  | .umsr64 _ a b => wrap64 (unsigned acc - prodSumU s a b)

/-- Every instruction is the shared shape of rule R62 over its narrowing. -/
theorem exec_eq_accumulate (i : Instr) (s : State) : exec i s = accumulate s i.rd (narrowing i s) := by
  cases i <;> rfl

/-- An accumulation on RV64 always completes (rules R15, R60). -/
theorem accumulate_rv64 {s : State} {h : Hart 64} (hs : s.core = .rv64 h) (rd : RegNum)
    (f : DWord → DWord × Bool) :
    accumulate s rd f = .next { s with
      core := .rv64 (h.write s.cfg rd (f (h.read s.cfg rd)).1).advance
      ov := s.ov || (f (h.read s.cfg rd)).2 } := by
  simp only [accumulate, accRead, accWrite, hs]
  cases (f (h.read s.cfg rd)).2 <;> simp [State.setOvIf, State.advance]

/-- An accumulation on RV32 is decided by the odd check, the pair read and the pair write (rules R13, R14, R59). -/
theorem accumulate_rv32 {s : State} {h : Hart 32} (hs : s.core = .rv32 h) (rd : RegNum)
    (f : DWord → DWord × Bool) :
    (oddRdRefused s.cfg rd = true ∧ accumulate s rd f = .refused .oddRd) ∨
    (oddRdRefused s.cfg rd = false ∧ pairNum rd = 0 ∧ s.cfg.pair0 = .refuse ∧
      accumulate s rd f = .refused .pair0) ∨
    (oddRdRefused s.cfg rd = false ∧ ∃ acc h',
      pairRead s.cfg h (pairNum rd) = .ok acc ∧ pairWrite s.cfg h (pairNum rd) (f acc).1 = .ok h' ∧
      accumulate s rd f = .next { s with core := .rv32 h'.advance, ov := s.ov || (f acc).2 }) := by
  simp only [accumulate, accRead, hs]
  by_cases ho : oddRdRefused s.cfg rd = true
  · simp [ho]
  · simp only [Bool.not_eq_true] at ho
    simp only [ho, Bool.false_eq_true, if_false, false_and, false_or, true_and]
    rcases pairRead_cases s.cfg h (pairNum rd) with
      ⟨hd, hp, hr⟩ | ⟨hd, hp, hr⟩ | ⟨hd, hp, hr⟩ | ⟨hd, hr⟩
    · exact .inl ⟨hd, hp, by rw [hr]⟩
    all_goals
      refine .inr ?_
      rw [hr]
      rcases pairWrite_cases s.cfg h (pairNum rd) (f _).1 with
        ⟨hd', hp', hw⟩ | ⟨hd', hp', hw⟩ | ⟨hd', hp', hw⟩ | ⟨hd', hw⟩
      all_goals first
        | (exfalso; simp_all; done)
        | (refine ⟨_, _, rfl, hw, ?_⟩
           simp only [accWrite, hs, hw]
           cases (f _).2 <;> simp [State.setOvIf, State.advance])

/-- An execution faults on no path (rule R95). -/
theorem exec_ne_fault (i : Instr) (s : State) (r : Fault) : exec i s ≠ .fault r := by
  rw [exec_eq_accumulate]
  unfold accumulate
  split
  · simp
  · split <;> simp

/-- What an execution leaves as it was, whatever it computes (rules R16, R25). -/
theorem exec_next_frame {i : Instr} {s t : State} (he : exec i s = .next t) :
    t.cfg = s.cfg ∧ t.mem = s.mem ∧ t.listing = s.listing ∧ t.xlen = s.xlen ∧
      t.pcVal = (s.pcVal + 4) % 2 ^ s.xlen.bits := by
  rw [exec_eq_accumulate] at he
  cases hs : s.core with
  | rv64 h =>
    rw [accumulate_rv64 hs] at he
    obtain rfl := Host.Outcome.next.inj he
    simp only [State.xlen, State.pcVal, hs, Hart.advance_pc, Hart.write_pc, true_and]
    exact toNat_toBits_add_four _
  | rv32 h =>
    rcases accumulate_rv32 hs i.rd (narrowing i s) with ⟨-, e⟩ | ⟨-, -, -, e⟩ | ⟨-, acc, h', -, hw, e⟩
    · rw [e] at he; cases he
    · rw [e] at he; cases he
    · rw [e] at he
      obtain rfl := Host.Outcome.next.inj he
      have hpc : h'.pc = h.pc := by
        rcases pairWrite_cases s.cfg h (pairNum i.rd) (narrowing i s acc).1 with
          ⟨-, -, e⟩ | ⟨-, -, e⟩ | ⟨-, -, e⟩ | ⟨-, e⟩
        · rw [hw] at e; cases e
        all_goals
          rw [hw] at e
          obtain rfl := Except.ok.inj e
          simp
      simp only [State.xlen, State.pcVal, hs, Hart.advance_pc, hpc, true_and]
      exact toNat_toBits_add_four _

end Sys2Proof.Machine
end

