-- ==== Sys2Proof/Laws/Memory.lean ====
section
/-! SUPPORT. The laws of instruction memory: a write keeps the canonical form, a read after a write of the same
address gives the byte written, and every other address reads as before. -/

namespace Sys2Proof.Machine

/-- The empty memory is canonical. -/
theorem Memory.wf_nil : Memory.wf [] = true := rfl

/-- Every address of a memory after a write is the written one or was there before. -/
theorem Memory.mem_writeByte {m : Memory} {a : Nat} {b : Byte} {p : Host.Cell}
    (hp : p ∈ Memory.writeByte m a b) : p = (a, b) ∨ p ∈ m := by
  induction m with
  | nil => simpa [Memory.writeByte] using hp
  | cons q m ih =>
    obtain ⟨k, v⟩ := q
    simp only [Memory.writeByte] at hp
    split at hp
    · simpa using hp
    · split at hp
      · rcases List.mem_cons.mp hp with h | h
        · exact .inl h
        · exact .inr (List.mem_cons_of_mem _ h)
      · rcases List.mem_cons.mp hp with h | h
        · exact .inr (h ▸ List.mem_cons_self)
        · exact (ih h).imp_right (List.mem_cons_of_mem _)

/-- A write keeps the canonical form. -/
theorem Memory.writeByte_wf {m : Memory} (hm : Memory.wf m = true) (a : Nat) (b : Byte) :
    Memory.wf (Memory.writeByte m a b) = true := by
  simp only [Memory.wf, decide_eq_true_eq, List.pairwise_map] at hm ⊢
  induction m with
  | nil => simp [Memory.writeByte]
  | cons q m ih =>
    obtain ⟨k, v⟩ := q
    obtain ⟨hk, hm⟩ := List.pairwise_cons.mp hm
    simp only [Memory.writeByte]
    split
    · rename_i hlt
      refine List.pairwise_cons.mpr ⟨?_, List.pairwise_cons.mpr ⟨hk, hm⟩⟩
      intro p hp
      rcases List.mem_cons.mp hp with h | h
      · subst h; exact hlt
      · exact lt_trans hlt (hk p h)
    · split
      · rename_i heq
        subst heq
        exact List.pairwise_cons.mpr ⟨hk, (List.pairwise_cons.mp ‹_›).2⟩
      · rename_i hge hne
        refine List.pairwise_cons.mpr ⟨?_, ih hm⟩
        intro p hp
        rcases Memory.mem_writeByte hp with h | h
        · subst h; show k < a; omega
        · exact hk p h

/-- A word write keeps the canonical form. -/
theorem Memory.writeWord_wf {m : Memory} (hm : Memory.wf m = true) (a : Nat) (w : Word32) :
    Memory.wf (Memory.writeWord m a w) = true :=
  writeByte_wf (writeByte_wf (writeByte_wf (writeByte_wf hm _ _) _ _) _ _) _ _

/-- The byte at the written address is the byte written. -/
theorem Memory.readByte_writeByte_same (m : Memory) (a : Nat) (b : Byte) :
    Memory.readByte (Memory.writeByte m a b) a = some b := by
  induction m with
  | nil => simp [Memory.writeByte, Memory.readByte]
  | cons q m ih =>
    obtain ⟨k, v⟩ := q
    simp only [Memory.writeByte]
    split
    · simp [Memory.readByte]
    · split
      · simp [Memory.readByte]
      · rename_i h1 h2
        simp [Memory.readByte, ih, Ne.symm h2]

/-- Every other address reads as before. -/
theorem Memory.readByte_writeByte_other (m : Memory) {a a' : Nat} (b : Byte) (h : a' ≠ a) :
    Memory.readByte (Memory.writeByte m a b) a' = Memory.readByte m a' := by
  induction m with
  | nil => simp [Memory.writeByte, Memory.readByte, Ne.symm h]
  | cons q m ih =>
    obtain ⟨k, v⟩ := q
    simp only [Memory.writeByte]
    split
    · simp [Memory.readByte, Ne.symm h]
    · split
      · rename_i h1 h2
        subst h2
        simp [Memory.readByte, Ne.symm h]
      · simp only [Memory.readByte, ih]

/-- The four bytes of a word give the word back (rule R27). -/
theorem wordOfBytes_byteOfWord (w : Word32) :
    wordOfBytes (byteOfWord w 0) (byteOfWord w 1) (byteOfWord w 2) (byteOfWord w 3) = w := by
  ext i hi
  simp only [wordOfBytes, byteOfWord, ← BitVec.getLsbD_eq_getElem, BitVec.getLsbD_append,
    BitVec.getLsbD_extractLsb']
  have : i < 8 ∨ (8 ≤ i ∧ i < 16) ∨ (16 ≤ i ∧ i < 24) ∨ 24 ≤ i := by omega
  rcases this with h | h | h | h
  · simp [h]
  · simp [show ¬ i < 8 by omega, show i - 8 < 8 by omega, show 8 + (i - 8) = i by omega]
  · simp [show ¬ i < 8 by omega, show ¬ i - 8 < 8 by omega, show i - 8 - 8 < 8 by omega,
      show 16 + (i - 8 - 8) = i by omega]
  · simp [show ¬ i < 8 by omega, show ¬ i - 8 < 8 by omega, show ¬ i - 8 - 8 < 8 by omega,
      show i - 8 - 8 - 8 < 8 by omega, show 24 + (i - 8 - 8 - 8) = i by omega]

/-- A word read where a word was written gives that word. -/
theorem Memory.readWord_writeWord (m : Memory) (a : Nat) (w : Word32) :
    Memory.readWord (Memory.writeWord m a w) a = some w := by
  have e0 : Memory.readByte (Memory.writeWord m a w) a = some (byteOfWord w 0) := by
    unfold Memory.writeWord
    rw [readByte_writeByte_other _ _ (by omega), readByte_writeByte_other _ _ (by omega),
      readByte_writeByte_other _ _ (by omega), readByte_writeByte_same]
  have e1 : Memory.readByte (Memory.writeWord m a w) (a + 1) = some (byteOfWord w 1) := by
    unfold Memory.writeWord
    rw [readByte_writeByte_other _ _ (by omega), readByte_writeByte_other _ _ (by omega),
      readByte_writeByte_same]
  have e2 : Memory.readByte (Memory.writeWord m a w) (a + 2) = some (byteOfWord w 2) := by
    unfold Memory.writeWord
    rw [readByte_writeByte_other _ _ (by omega), readByte_writeByte_same]
  have e3 : Memory.readByte (Memory.writeWord m a w) (a + 3) = some (byteOfWord w 3) := by
    unfold Memory.writeWord
    rw [readByte_writeByte_same]
  simp only [Memory.readWord, e0, e1, e2, e3, wordOfBytes_byteOfWord]

/-- A word write leaves every address outside its four as it was. -/
theorem Memory.readByte_writeWord_other (m : Memory) {a a' : Nat} (w : Word32)
    (h : a' < a ∨ a + 4 ≤ a') : Memory.readByte (Memory.writeWord m a w) a' = Memory.readByte m a' := by
  unfold Memory.writeWord
  rw [readByte_writeByte_other _ _ (by omega), readByte_writeByte_other _ _ (by omega),
    readByte_writeByte_other _ _ (by omega), readByte_writeByte_other _ _ (by omega)]

end Sys2Proof.Machine
end

