-- ==== Sys2Proof/Laws/PerInstr.lean ====
section
/-! SUPPORT. The per-instruction families of LAWS.json. -/

namespace Sys2Proof.Laws

/-- An instruction is its name with its three operands, and its word with every operand zero, or every operand bit set,
is its row's match word (rules R44, R45) with the bits outside the mask zero, or set. -/
def EncodingCarriesRow.Statement (i : Instr) : Prop :=
  Instr.make i.mnemonic i.rd i.rs1 i.rs2 = i ∧
    encode (Instr.make i.mnemonic 0 0 0) = i.mnemonic.matchWord ∧
    encode (Instr.make i.mnemonic 31 31 31) = i.mnemonic.matchWord ||| ~~~ rowMask

theorem EncodingCarriesRow.kmar64 (rd rs1 rs2 : RegNum) :
    EncodingCarriesRow.Statement (.kmar64 rd rs1 rs2) := by
  exact ⟨rfl, by simp only [Instr.mnemonic]; decide⟩

theorem EncodingCarriesRow.kmsr64 (rd rs1 rs2 : RegNum) :
    EncodingCarriesRow.Statement (.kmsr64 rd rs1 rs2) := by
  exact ⟨rfl, by simp only [Instr.mnemonic]; decide⟩

theorem EncodingCarriesRow.smar64 (rd rs1 rs2 : RegNum) :
    EncodingCarriesRow.Statement (.smar64 rd rs1 rs2) := by
  exact ⟨rfl, by simp only [Instr.mnemonic]; decide⟩

theorem EncodingCarriesRow.smsr64 (rd rs1 rs2 : RegNum) :
    EncodingCarriesRow.Statement (.smsr64 rd rs1 rs2) := by
  exact ⟨rfl, by simp only [Instr.mnemonic]; decide⟩

theorem EncodingCarriesRow.ukmar64 (rd rs1 rs2 : RegNum) :
    EncodingCarriesRow.Statement (.ukmar64 rd rs1 rs2) := by
  exact ⟨rfl, by simp only [Instr.mnemonic]; decide⟩

theorem EncodingCarriesRow.ukmsr64 (rd rs1 rs2 : RegNum) :
    EncodingCarriesRow.Statement (.ukmsr64 rd rs1 rs2) := by
  exact ⟨rfl, by simp only [Instr.mnemonic]; decide⟩

theorem EncodingCarriesRow.umar64 (rd rs1 rs2 : RegNum) :
    EncodingCarriesRow.Statement (.umar64 rd rs1 rs2) := by
  exact ⟨rfl, by simp only [Instr.mnemonic]; decide⟩

theorem EncodingCarriesRow.umsr64 (rd rs1 rs2 : RegNum) :
    EncodingCarriesRow.Statement (.umsr64 rd rs1 rs2) := by
  exact ⟨rfl, by simp only [Instr.mnemonic]; decide⟩

end Sys2Proof.Laws
end

