-- ==== Sys2Proof/Laws/Step.lean ====
section
/-! SUPPORT. What one step can do, and how a run unrolls. -/

namespace Sys2Proof.Machine

/-- A step that answers a next state is not at the end of the text and is the execution of the instruction fetched. -/
theorem step_next {s t : State} (h : step s = .next t) :
    s.isFinal = false ∧ s.pcInText = true ∧ ∃ i, s.fetch = .ok i ∧ exec i s = .next t := by
  unfold step at h
  split at h
  · cases h
  · rename_i hf
    split at h
    · rename_i i hi
      refine ⟨by simpa using hf, ?_, i, hi, h⟩
      unfold State.fetch at hi
      split at hi
      · assumption
      · cases hi
    · cases h

/-- A fetch inside the text ends the run of an execution: the step is the execution. -/
theorem step_of_fetch {s : State} {i : Instr} (hf : s.fetch = .ok i) : step s = exec i s := by
  have hin : s.pcInText = true := by
    unfold State.fetch at hf
    split at hf
    · assumption
    · cases hf
  have : s.isFinal = false := by
    simp only [State.pcInText, Bool.and_eq_true, decide_eq_true_eq] at hin
    simp only [State.isFinal, decide_eq_false_iff_not]
    omega
  simp [step, this, hf]

/-- A step faults on no path. -/
theorem step_ne_fault (s : State) (r : Fault) : step s ≠ .fault r := by
  unfold step
  split
  · simp
  · split
    · exact exec_ne_fault _ _ _
    · simp

theorem core_run_succ_next (M : Host.Core) {s s' : M.State} (k : Nat) (h : M.step s = .next s') :
    M.run (k + 1) s = M.run k s' := by
  simp only [Host.Core.run, h]

theorem core_run_succ_refused (M : Host.Core) {s : M.State} {r : M.Refusal} (k : Nat)
    (h : M.step s = .refused r) : M.run (k + 1) s = .refused r := by
  simp only [Host.Core.run, h]

/-- A run of no step. -/
theorem run_zero (s : State) : Sys2Proof.core.run 0 s = .next s := rfl

/-- A run whose first step answers a next state goes on from it. -/
theorem run_succ_next {s s' : State} (k : Nat) (h : step s = .next s') :
    Sys2Proof.core.run (k + 1) s = Sys2Proof.core.run k s' :=
  core_run_succ_next Sys2Proof.core k h

/-- A run whose first step is refused is refused. -/
theorem run_succ_refused {s : State} {r : Refusal} (k : Nat) (h : step s = .refused r) :
    Sys2Proof.core.run (k + 1) s = .refused r :=
  core_run_succ_refused Sys2Proof.core k h

/-- Every run either meets a next state or a refusal at its first step. -/
theorem step_cases (s : State) : (∃ t, step s = .next t) ∨ ∃ r, step s = .refused r := by
  cases h : step s with
  | next t => exact .inl ⟨t, rfl⟩
  | fault r => exact absurd h (step_ne_fault s r)
  | refused r => exact .inr ⟨r, rfl⟩

end Sys2Proof.Machine
end

