-- ==== Sys2Proof/Tests/Slice0.lean ====
section
/-! SUPPORT. Tests on fixed values, with expected results from 95_test_vectors.md (its vector named in each), and
the witnesses that the hypotheses of the statements can be met. -/

namespace Sys2Proof.Tests

open Sys2Proof.Machine Sys2Proof.Statements

/-! ### Small states -/

/-- 32 registers, zero but for those listed. -/
def regs (w : Nat) (l : List (Nat × Nat)) : Vector (BitVec w) 32 :=
  l.foldl (fun x p => x.setIfInBounds p.1 (BitVec.ofNat w p.2)) (Vector.replicate 32 0)

/-- An RV32 state at `pc = 0x1000`. -/
def on32 (l : List (Nat × Nat)) (c : Config := {}) (ov : Bool := false) : State :=
  { core := .rv32 { x := regs 32 l, pc := 0x1000 }, ov := ov, cfg := c, mem := [], listing := [] }

/-- An RV64 state at `pc = 0x1000`. -/
def on64 (l : List (Nat × Nat)) (c : Config := {}) (ov : Bool := false) : State :=
  { core := .rv64 { x := regs 64 l, pc := 0x1000 }, ov := ov, cfg := c, mem := [], listing := [] }

/-- A state with words in memory at 0x1000, `text_base` there and `text_end` just after them. -/
def withText (s : State) (ws : List Word32) : State :=
  { s with
    mem := (ws.zipIdx).foldl (fun m p => Memory.writeWord m (0x1000 + 4 * p.2) p.1) []
    cfg := { s.cfg with textBase := 0x1000, textEnd := 0x1000 + 4 * ws.length, resetPc := 0x1000 } }

/-- A field of the next state, or none. -/
def after {α : Type} (o : Host.Outcome State Fault Refusal) (f : State → α) : Option α :=
  match o with
  | .next t => some (f t)
  | _ => none

/-- The reason of a refusal, or none. -/
def refusal (o : Host.Outcome State Fault Refusal) : Option Refusal :=
  match o with
  | .refused r => some r
  | _ => none

/-- The pair `2d+1, 2d` with OV and `pc`, as numbers. -/
def pairOvPc (d : Nat) (s : State) : Nat × Bool × Nat :=
  (s.regVal (BitVec.ofNat 5 (2 * d + 1)) * 2 ^ 32 + s.regVal (BitVec.ofNat 5 (2 * d)), s.ov, s.pcVal)

/-- Register `n` with OV and `pc`, as numbers. -/
def regOvPc (n : RegNum) (s : State) : Nat × Bool × Nat := (s.regVal n, s.ov, s.pcVal)

/-! ### The eight instructions, one vector at each width -/

/-- V-KMAR-8. -/
theorem test_kmar64_rv32_saturates_at_two_to_63 :
    after (exec (.kmar64 10 12 13) (on32 [(11, 0x40000000), (12, 0x80000000), (13, 0x80000000)]))
      (pairOvPc 5) = some (0x7FFFFFFFFFFFFFFF, true, 0x1004) := by decide

/-- V-KMAR-64-5. -/
theorem test_kmar64_rv64_saturates_once_after_both_lanes :
    after (exec (.kmar64 10 12 13)
      (on64 [(10, 0x7FFFFFFFFFFFFFFF), (12, 0x0000000100000001), (13, 0xFFFFFFFF00000001)]))
      (regOvPc 10) = some (0x7FFFFFFFFFFFFFFF, false, 0x1004) := by decide

/-- V-KMSR-9. -/
theorem test_kmsr64_rv32_saturates_low :
    after (exec (.kmsr64 10 12 13)
      (on32 [(11, 0xBFFFFFFF), (10, 0xFFFFFFFF), (12, 0x80000000), (13, 0x80000000)]))
      (pairOvPc 5) = some (0x8000000000000000, true, 0x1004) := by decide

/-- V-KMSR-64-3. -/
theorem test_kmsr64_rv64_lands_on_the_lower_end :
    after (exec (.kmsr64 10 12 13) (on64 [(12, 0x8000000080000000), (13, 0x8000000080000000)]))
      (regOvPc 10) = some (0x8000000000000000, false, 0x1004) := by decide

/-- V-REG-13: both multiplicands lie in the accumulator. -/
theorem test_smar64_rv32_reads_before_it_writes :
    after (exec (.smar64 10 10 11) (on32 [(10, 3), (11, 2)])) (pairOvPc 5) =
      some (0x0000000200000009, false, 0x1004) := by decide

/-- V-SMAR-64-4, with OV 1 before. -/
theorem test_smar64_rv64_signed_lanes :
    after (exec (.smar64 10 12 13)
      (on64 [(12, 0xFFFFFFFF00000002), (13, 0x0000000300000004)] {} true)) (regOvPc 10) =
      some (5, true, 0x1004) := by decide

/-- V-SMSR-6: a borrow from the high half. -/
theorem test_smsr64_rv32_borrows :
    after (exec (.smsr64 10 12 13) (on32 [(11, 1), (12, 1), (13, 1)])) (pairOvPc 5) =
      some (0x00000000FFFFFFFF, false, 0x1004) := by decide

/-- V-SMSR-64-4. -/
theorem test_smsr64_rv64_wraps :
    after (exec (.smsr64 10 12 13)
      (on64 [(10, 0x8000000000000000), (12, 0x0000000100000001), (13, 0x0000000100000001)]))
      (regOvPc 10) = some (0x7FFFFFFFFFFFFFFE, false, 0x1004) := by decide

/-- V-UKMAR-9: the product is unsigned on RV32 (90_conflicts.md C1). -/
theorem test_ukmar64_rv32_product_is_unsigned :
    after (exec (.ukmar64 10 12 13) (on32 [(12, 0x80000000), (13, 2)])) (pairOvPc 5) =
      some (0x0000000100000000, false, 0x1004) := by decide

/-- V-UKMAR-64-6. -/
theorem test_ukmar64_rv64_saturates :
    after (exec (.ukmar64 10 12 13)
      (on64 [(10, 0x00000001FFFFFFFE), (12, 0x00000001FFFFFFFF), (13, 0x00000001FFFFFFFF)]))
      (regOvPc 10) = some (0xFFFFFFFFFFFFFFFF, true, 0x1004) := by decide

/-- V-UKMSR-5. -/
theorem test_ukmsr64_rv32_saturates_to_zero :
    after (exec (.ukmsr64 10 12 13)
      (on32 [(11, 0xFFFFFFFE), (12, 0xFFFFFFFF), (13, 0xFFFFFFFF)])) (pairOvPc 5) =
      some (0, true, 0x1004) := by decide

/-- V-UKMSR-64-4. -/
theorem test_ukmsr64_rv64_lands_on_zero :
    after (exec (.ukmsr64 10 12 13)
      (on64 [(10, 0x1F), (12, 0x0000000200000003), (13, 0x0000000500000007)])) (regOvPc 10) =
      some (0, false, 0x1004) := by decide

/-- V-REG-18: the last pair, with a carry into its high half. -/
theorem test_umar64_rv32_last_pair :
    after (exec (.umar64 30 1 2) (on32 [(30, 0xFFFFFFFF), (1, 1), (2, 1)])) (pairOvPc 15) =
      some (0x0000000100000000, false, 0x1004) := by decide

/-- V-UMAR-64-3. -/
theorem test_umar64_rv64_wraps :
    after (exec (.umar64 10 12 13) (on64 [(12, 0xFFFFFFFFFFFFFFFF), (13, 0xFFFFFFFFFFFFFFFF)]))
      (regOvPc 10) = some (0xFFFFFFFC00000002, false, 0x1004) := by decide

/-- V-REG-15: the multiplicand register is in the accumulator and changes after it was read. -/
theorem test_umsr64_rv32_multiplicand_in_accumulator :
    after (exec (.umsr64 4 5 5) (on32 [(4, 0x12), (5, 5)])) (pairOvPc 2) =
      some (0x00000004FFFFFFF9, false, 0x1004) := by decide

/-- V-UMSR-64-3. -/
theorem test_umsr64_rv64_wraps :
    after (exec (.umsr64 10 12 13)
      (on64 [(10, 0xFFFFFFFFFFFFFFFF), (12, 0xFFFFFFFFFFFFFFFF), (13, 0xFFFFFFFFFFFFFFFF)]))
      (regOvPc 10) = some (0x00000003FFFFFFFD, false, 0x1004) := by decide

/-! ### Register selection -/

/-- V-REG-2: an odd `rd` with bit 0 ignored selects the same pair. -/
theorem test_odd_rd_ignored :
    after (exec (.smar64 11 12 13) (on32 [(10, 5), (12, 3), (13, 4)])) (pairOvPc 5) =
      some (0x11, false, 0x1004) := by decide

/-- V-REG-3 and V-REG-10: an odd `rd` refused, before the pair-0 check. -/
theorem test_odd_rd_refused :
    refusal (exec (.smar64 11 12 13) (on32 [] { oddRd := .refuse })) = some .oddRd ∧
    refusal (exec (.kmar64 1 5 6) (on32 [] { oddRd := .refuse })) = some .oddRd := by decide

/-- V-REG-4 and V-REG-9. -/
theorem test_pair0_refused :
    refusal (exec (.kmar64 0 5 6) (on32 [(1, 1), (5, 3), (6, 4)])) = some .pair0 ∧
    refusal (exec (.kmar64 1 5 6) (on32 [(1, 1), (5, 3), (6, 4)])) = some .pair0 := by decide

/-- V-REG-7. -/
theorem test_pair0_literal :
    after (exec (.ukmsr64 0 5 6) (on32 [(1, 1), (5, 3), (6, 4)] { pair0 := .literal })) (pairOvPc 0) =
      some (0, false, 0x1004) := by decide

/-- V-REG-8. -/
theorem test_pair0_zero_discard :
    after (exec (.ukmsr64 0 5 6) (on32 [(1, 1), (5, 3), (6, 4)] { pair0 := .zeroDiscard }))
      (pairOvPc 0) = some (0x0000000100000000, true, 0x1004) := by decide

/-- V-REG-20: RV64 with `rd` register 0 drops the write and still sets OV. -/
theorem test_rv64_rd_zero :
    after (exec (.kmar64 0 11 12) (on64 [(11, 0x8000000080000000), (12, 0x8000000080000000)]))
      (regOvPc 0) = some (0, true, 0x1004) := by decide

/-- V-REG-11: register 0 as a multiplicand reads zero, whatever its cell holds. -/
theorem test_register_zero_multiplicand :
    after (exec (.kmar64 10 0 13)
      (on32 [(0, 7), (10, 0xFFFFFFFF), (11, 0x7FFFFFFF), (13, 0xFFFFFFFF)])) (pairOvPc 5) =
      some (0x7FFFFFFFFFFFFFFF, false, 0x1004) := by decide

/-! ### Decoding, encoding and the textual level -/

/-- V-ENC-25 to V-ENC-31 and 30_encoding.md section 6. -/
theorem test_decode_words :
    decodeWord 0xA7FF9FF7 = .ok (.umsr64 31 31 31) ∧ decodeWord 0xA4209F77 = .ok (.umar64 30 1 2) ∧
    decodeWord 0x84D615F7 = .ok (.smar64 11 12 13) ∧ decodeWord 0x94D01577 = .ok (.kmar64 10 0 13) ∧
    decodeWord 0x96849477 = .ok (.kmsr64 8 9 8) ∧ decodeWord 0xB4C61677 = .ok (.ukmar64 12 12 12) ∧
    decodeWord 0xB6D61577 = .ok (.ukmsr64 10 12 13) ∧ decodeWord 0x86731277 = .ok (.smsr64 4 6 7) :=
  ⟨rfl, rfl, rfl, rfl, rfl, rfl, rfl, rfl⟩

/-- V-DEC-2, V-DEC-4, V-DEC-5, V-DEC-9, V-DEC-10, V-DEC-13, and too few bytes. -/
theorem test_decode_rejects :
    decodeWord 0x94D62577 = .error .notInScope ∧ decodeWord 0x94D61573 = .error .notInScope ∧
    decodeWord 0x94D6157F = .error .notInScope ∧ decodeWord 0x98D61577 = .error .notInScope ∧
    decodeWord 0xC4D61577 = .error .notInScope ∧ decodeWord 0xFFFFFFFF = .error .notInScope ∧
    decodeBytes [0x77, 0x15, 0xD6] = .error .tooShort :=
  ⟨rfl, rfl, rfl, rfl, rfl, rfl, rfl⟩

/-- V-ENC-11's bytes, lowest address first, with a byte after them. -/
theorem test_decode_bytes :
    decodeBytes [0x77, 0x15, 0xD6, 0x94, 0x00] = .ok (.kmar64 10 12 13, [0x00]) := rfl

/-- The table's word of each row, operands zero. -/
theorem test_decode_table_words :
    ([0x94001077, 0x96001077, 0x84001077, 0x86001077, 0xB4001077, 0xB6001077, 0xA4001077,
      0xA6001077].map (decodeTableWord 32)) =
      Mnemonic.all.map (fun m => some (Instr.make m 0 0 0)) := by decide

/-- Rule R50's order of operands; one record in each spelling. -/
theorem test_textual :
    (Instr.kmar64 10 12 13).assembly = "KMAR64 x10, x12, x13" ∧
    (AsmLine.mk "KMAR64" 10 12 13).toInstr = .ok (.kmar64 10 12 13) ∧
    (AsmLine.mk "umsr64" 0 31 1).toInstr = .ok (.umsr64 0 31 1) := ⟨by decide, rfl, rfl⟩

/-- The well-formedness smoke test of a record: one ill-formed record for each check. -/
theorem test_wellFormed_record :
    (AsmLine.mk "KMAR64" 31 31 31).wellFormed = true ∧
    (AsmLine.mk "KMAR65" 1 2 3).wellFormed = false ∧ (AsmLine.mk "KMAR64" 32 2 3).wellFormed = false ∧
    (AsmLine.mk "KMAR64" 1 32 3).wellFormed = false ∧
    (AsmLine.mk "KMAR64" 1 2 32).wellFormed = false := by decide

/-- The well-formedness smoke test of a configuration: one ill-formed configuration for each check. -/
theorem test_wellFormed_config :
    Config.wellFormed .rv32 { textBase := 0x1000, textEnd := 0x100C, resetPc := 0x1000 } = true ∧
    Config.wellFormed .rv32 { textBase := 2, textEnd := 4 } = false ∧
    Config.wellFormed .rv32 { textBase := 0, textEnd := 6 } = false ∧
    Config.wellFormed .rv32 { textBase := 8, textEnd := 4 } = false ∧
    Config.wellFormed .rv32 { textEnd := 2 ^ 32 } = false ∧
    Config.wellFormed .rv32 { resetPc := 2 ^ 32 } = false := by decide

/-! ### Fetch and step -/

/-- V-FETCH-1's text. -/
def fetchState (pc : Nat) : State :=
  { withText (on32 [(12, 2), (13, 3)]) [0x94D61577] with
    core := .rv32 { x := regs 32 [(12, 2), (13, 3)], pc := BitVec.ofNat 32 pc } }

/-- V-FETCH-1. -/
theorem test_fetch_runs : after (step (fetchState 0x1000)) (pairOvPc 5) = some (6, false, 0x1004) := by
  decide

/-- V-FETCH-2, V-FETCH-4, V-FETCH-5, and V-FETCH-3 where the run is final. -/
theorem test_fetch_stops :
    refusal (step (fetchState 0x1002)) = some .badFetch ∧
    refusal (step (fetchState 0x1008)) = some .badFetch ∧
    refusal (step (fetchState 0x0FFC)) = some .badFetch ∧
    refusal (step (fetchState 0x1004)) = some .runFinal := by decide

/-- V-DEC-14 fetched. -/
theorem test_out_of_scope_word : refusal (step (withText (on32 []) [0x00000013])) = some .notInScope := by
  decide

/-- A step after reset runs the word placed for it. -/
theorem test_placed_word_runs :
    after (step (State.reset.withFetchWord 32 0x94001077)) State.pcVal = some 4 := by decide

/-- Right after reset no program is there, and the run is final (log entry 5). -/
theorem test_reset_has_no_program : refusal (step State.reset) = some .runFinal := by decide

/-! ### Intrinsics -/

/-- V-INT-2 and V-INT-10. -/
theorem test_intrinsics :
    rvKmsr64 .rv32 100 7 (BitVec.ofInt 32 (-3)) = (121, false) ∧
    rvUmar64 .rv64 0 0xFFFFFFFF00000002 0x0000000300000004 = (0x0000000300000005, false) := ⟨rfl, rfl⟩

/-! ### Witnesses: the hypotheses of the statements can be met -/

/-- Any RV64 state's registers. -/
def h64 : Hart 64 := { x := regs 64 [(1, 5), (2, 3), (31, 4)], pc := 0x1000 }

/-- Any RV32 state's registers. -/
def h32 : Hart 32 := { x := regs 32 [(1, 5), (2, 3), (30, 4), (31, 9)], pc := 0x1000 }

/-- An RV64 state with those registers. -/
def s64 : State := { core := .rv64 h64, ov := false, cfg := {}, mem := [], listing := [] }

/-- An RV32 state with those registers and a configuration. -/
def s32 (c : Config) : State := { core := .rv32 h32, ov := false, cfg := c, mem := [], listing := [] }

/-- The eight result statements, the RV64 clause, at the lowest and highest ordinary `rd`, and register 0 as an ordinary
register. -/
theorem witness_result_rv64 :
    s64.core = .rv64 h64 ∧ ¬ (s64.cfg.x0Hardwired = true ∧ (1 : RegNum) = 0) ∧
    ¬ (s64.cfg.x0Hardwired = true ∧ (31 : RegNum) = 0) ∧
    ¬ (({ x0Hardwired := false } : Config).x0Hardwired = true ∧ (0 : RegNum) = 0) := ⟨rfl, by decide⟩

/-- The eight result statements, the RV32 clause, at the pairs 1 and 15, even and odd. -/
theorem witness_result_rv32 :
    (s32 {}).core = .rv32 h32 ∧ (2 : RegNum).toNat / 2 ≠ 0 ∧ (31 : RegNum).toNat / 2 ≠ 0 ∧
    (2 : RegNum).toNat % 2 ≠ 1 ∧ (s32 {}).cfg.oddRd = .ignoreBit0 ∧ (s32 { oddRd := .refuse }).core = .rv32 h32 :=
  ⟨rfl, by decide, by decide, by decide, rfl, rfl⟩

/-- The eight result statements applied: each instruction completes on the pair 1 and on register 31. -/
theorem witness_every_instruction_completes :
    ∀ m ∈ Mnemonic.all, (after (exec (Instr.make m 2 30 31) (s32 {})) State.ov).isSome = true ∧
      (after (exec (Instr.make m 31 1 2) s64) State.ov).isSome = true := by decide

theorem witness_Rv64AccumulatorRegisterZeroKeepsOnlyOv :
    s64.core = .rv64 h64 ∧ s64.cfg.x0Hardwired = true := ⟨rfl, rfl⟩

theorem witness_Rv32PairZeroLiteralUsesRegistersOneAndZero :
    (s32 { pair0 := .literal }).core = .rv32 h32 ∧ (1 : RegNum).toNat / 2 = 0 ∧
    (s32 { pair0 := .literal }).cfg.pair0 = .literal ∧
    ((1 : RegNum).toNat % 2 = 1 → (s32 { pair0 := .literal }).cfg.oddRd = .ignoreBit0) :=
  ⟨rfl, by decide, rfl, fun _ => rfl⟩

theorem witness_Rv32PairZeroDiscardKeepsOnlyOv :
    (s32 { pair0 := .zeroDiscard }).core = .rv32 h32 ∧ (0 : RegNum).toNat / 2 = 0 ∧
    (s32 { pair0 := .zeroDiscard }).cfg.pair0 = .zeroDiscard ∧ (0 : RegNum).toNat % 2 ≠ 1 :=
  ⟨rfl, by decide, rfl, by decide⟩

/-- Both stops and the completion of the statement of stops are met, each at a boundary register. -/
theorem witness_ExecStopsExactlyOnRefusedRegisterPairs :
    OddRdStops (s32 { oddRd := .refuse }) 1 ∧ Pair0Stops (s32 {}) 1 ∧ ¬ OddRdStops (s32 {}) 1 ∧
    ¬ Pair0Stops (s32 {}) 2 ∧ ¬ Pair0Stops s64 0 := by
  refine ⟨⟨rfl, by decide, rfl⟩, ⟨rfl, by decide, rfl⟩, fun h => ?_, fun h => ?_, fun h => ?_⟩
  · exact absurd h.2.2 (by decide)
  · exact absurd h.2.1 (by decide)
  · exact absurd h.1 (by decide)

/-- A next state to speak of, at each width, and a register outside the accumulator. -/
theorem witness_ExecChangesOnlyAccumulatorOvAndPc :
    (∃ t, exec (.kmar64 2 30 31) (s32 {}) = .next t) ∧ (∃ t, exec (.umsr64 31 1 2) s64 = .next t) ∧
    ¬ InAccumulator .rv32 2 1 ∧ ¬ InAccumulator .rv64 31 30 ∧ isSaturating .umsr64 = false :=
  ⟨⟨_, rfl⟩, ⟨_, rfl⟩, by unfold InAccumulator; decide, by unfold InAccumulator; decide, rfl⟩

/-- Two states that differ in a register the instruction does not name. -/
theorem witness_ExecReadsOnlyAccumulatorAndMultiplicands :
    (∃ t, exec (.smar64 2 30 31) (s32 {}) = .next t) ∧
    (∀ n, n = 2 ∨ n = 3 ∨ n = 30 ∨ n = 31 →
      (on32 [(1, 77), (2, 3), (30, 4), (31, 9)]).regVal n = (s32 {}).regVal n) ∧
    (on32 [(1, 77), (2, 3), (30, 4), (31, 9)]).regVal 1 ≠ (s32 {}).regVal 1 ∧
    (s32 {}).xlen = .rv32 ∧ (s32 {}).cfg.oddRd = .ignoreBit0 ∧
    (3 : RegNum).toNat / 2 = (2 : RegNum).toNat / 2 :=
  ⟨⟨_, rfl⟩, by rintro n (rfl | rfl | rfl | rfl) <;> decide, by decide, rfl, rfl, by decide⟩

theorem witness_OvIsSetOnlyBySaturationAndNeverRead :
    (∃ t, exec (.kmar64 2 30 31) (s32 {}) = .next t) ∧ (∃ acc, accRead (s32 {}) 2 = .ok acc) ∧
    isSaturating .smar64 = false := ⟨⟨_, rfl⟩, ⟨_, rfl⟩, rfl⟩

/-- A launched state whose one instruction saturates (V-OV-5). -/
def ovState : State := withText (on32 [(12, 1), (13, 1)]) [0xB6D61577]

theorem witness_OvAfterRunTellsWhetherAnyInstructionSaturated :
    ∃ t, Sys2Proof.core.run 1 ovState = .next t ∧ State.ov t = true ∧ ovState.ov = false :=
  ⟨_, rfl, rfl, rfl⟩

theorem witness_ProductTermPerWidthWithItsRanges :
    (s32 {}).core = .rv32 h32 ∧ s64.core = .rv64 h64 := ⟨rfl, rfl⟩

theorem witness_SignednessMattersOnlyInTheProduct :
    (s32 {}).core = .rv32 h32 ∧ (2 : RegNum).toNat / 2 ≠ 0 ∧ (s32 {}).cfg.oddRd = .ignoreBit0 :=
  ⟨rfl, by decide, rfl⟩

/-- The extremes of the exact results: registers that reach them, at both widths. -/
theorem witness_ExactResultsFitSixtySevenSignedBits :
    (Hart.read {} { x := regs 32 [(12, 0x80000000)], pc := 0 } 12 : Word32) = 0x80000000 ∧
    (Hart.read {} { x := regs 64 [(12, 0x8000000080000000)], pc := 0 } 12 : DWord) = 0x8000000080000000 ∧
    (Hart.read {} { x := regs 64 [(12, 0xFFFFFFFFFFFFFFFF)], pc := 0 } 12 : DWord) = 0xFFFFFFFFFFFFFFFF ∧
    (s32 {}).xlen = .rv32 ∧ s64.xlen = .rv64 := by decide

/-- V-KMAR-64-5 and V-KMAR-64-4 meet both clauses, in range and out of range. -/
theorem witness_Rv64SaturatesOnceAfterBothLanes :
    isSaturating .kmar64 = true ∧ s64.core = .rv64 h64 ∧
    kmar64Rule.setsOv
      (kmar64Rule.rv64 0x7FFFFFFFFFFFFFFF 0x0000000100000001 0xFFFFFFFF00000001) = false ∧
    kmar64Rule.setsOv (kmar64Rule.rv64 0 0x8000000080000000 0x8000000080000000) = true :=
  ⟨rfl, rfl, by decide, by decide⟩

theorem witness_RegisterZeroIsConstantWhenHardwired :
    ({} : Config).x0Hardwired = true ∧ ({ x0Hardwired := false } : Config).x0Hardwired = false ∧
    (31 : RegNum) ≠ 0 := by decide

theorem witness_DecodeAndEncodeAgree : decodeWord 0x94D61577 = .ok (.kmar64 10 12 13) := rfl

theorem witness_TextualRecordsReadBack :
    (AsmLine.mk "KMAR64" 31 0 1).toInstr = .ok (.kmar64 31 0 1) := rfl

/-- P1 of 95_test_vectors.md section 7, at its launch. -/
def p1 : State :=
  withText (on32 [(12, 3), (13, 0xFFFFFFFC), (14, 0x10000), (15, 0x10000), (16, 0x7FFFFFFF), (17, 2)])
    [0x84D61577, 0x84F71577, 0x85181577]

/-- The listing of P1. -/
def p1Listing : List AsmLine := [⟨"SMAR64", 10, 12, 13⟩, ⟨"SMAR64", 10, 14, 15⟩, ⟨"SMAR64", 10, 16, 17⟩]

theorem witness_StepRunsTheDecodedInstruction :
    p1.cfg.binaryLevel = true ∧ p1.pcVal % 4 = 0 ∧ p1.cfg.textBase ≤ p1.pcVal ∧
    p1.pcVal < p1.cfg.textEnd ∧ Memory.readByte p1.mem p1.pcVal = some 0x77 ∧
    Memory.readByte p1.mem (p1.pcVal + 1) = some 0x15 ∧
    Memory.readByte p1.mem (p1.pcVal + 2) = some 0xD6 ∧
    Memory.readByte p1.mem (p1.pcVal + 3) = some 0x84 ∧
    decodeBytes [0x77, 0x15, 0xD6, 0x84] = .ok (.smar64 10 12 13, []) :=
  ⟨rfl, by decide, by decide, by decide, by decide, by decide, by decide, by decide, rfl⟩

/-- P1 at the textual level. -/
def p1Textual : State := { p1.atLevel false with listing := p1Listing }

theorem witness_StepRunsTheListedInstruction :
    p1Textual.cfg.binaryLevel = false ∧ p1Textual.pcVal % 4 = 0 ∧
    p1Textual.cfg.textBase ≤ p1Textual.pcVal ∧ p1Textual.pcVal < p1Textual.cfg.textEnd ∧
    p1Textual.listing[(p1Textual.pcVal - p1Textual.cfg.textBase) / 4]? = some ⟨"SMAR64", 10, 12, 13⟩ ∧
    (AsmLine.mk "SMAR64" 10 12 13).toInstr = .ok (.smar64 10 12 13) :=
  ⟨rfl, by decide, by decide, by decide, rfl, rfl⟩

theorem witness_PlacedWordIsWhatTheNextStepRuns : State.reset.pcVal % 4 = 0 ∧ s64.pcVal % 4 = 0 := by decide

/-- A text of two instructions that holds some bytes and records. -/
def partText (binary : Bool) (pc : Nat) (mem : Memory) (listing : List AsmLine) : State :=
  { core := .rv32 { x := regs 32 [], pc := BitVec.ofNat 32 pc }, ov := false,
    cfg := { textBase := 0x1000, textEnd := 0x1008, binaryLevel := binary }, mem := mem, listing := listing }

/-- Each way of the statement of stops to be refused or to run is met: V-FETCH-1 to V-FETCH-5, V-DEC-14 and V-REG-4. -/
theorem witness_StepStopsExactlyAsListed :
    (fetchState 0x1004).pcVal = (fetchState 0x1004).cfg.textEnd ∧ (fetchState 0x1002).pcVal % 4 ≠ 0 ∧
    (fetchState 0x0FFC).pcVal < (fetchState 0x0FFC).cfg.textBase ∧
    (fetchState 0x1008).cfg.textEnd ≤ (fetchState 0x1008).pcVal ∧
    refusal (step (withText (on32 []) [0x94629077])) = some .pair0 ∧
    refusal (step (withText (on32 [] { oddRd := .refuse }) [0x84D615F7])) = some .oddRd := by decide

/-- The absent byte (the last of the four), the absent record (the index just beyond the listing), and the records that
are none of the eight: another mnemonic, and each operand at 32. -/
theorem witness_StepStopsExactlyAsListed_text :
    refusal (step (partText true 0x1000 [(0x1000, 0x77), (0x1001, 0x15), (0x1002, 0xD6)] [])) = some .badFetch ∧
    refusal (step (partText true 0x1000 (Memory.writeWord [] 0x1000 0x00000013) [])) = some .notInScope ∧
    refusal (step (partText false 0x1004 [] [⟨"SMAR64", 10, 12, 13⟩])) = some .badFetch ∧
    refusal (step (partText false 0x1000 [] [⟨"ADDI", 0, 0, 0⟩])) = some .notInScope ∧
    refusal (step (partText false 0x1000 [] [⟨"SMAR64", 32, 12, 13⟩])) = some .notInScope ∧
    refusal (step (partText false 0x1000 [] [⟨"SMAR64", 10, 32, 13⟩])) = some .notInScope ∧
    refusal (step (partText false 0x1000 [] [⟨"SMAR64", 10, 12, 32⟩])) = some .notInScope := by decide

theorem witness_EveryStepKeepsTheStateWellPlaced : p1.inv = true ∧ ∃ t, step p1 = .next t :=
  ⟨by decide, _, rfl⟩

theorem witness_ResetIsWellPlaced :
    Config.wellFormed .rv32 { textBase := 0x1000, textEnd := 0x100C, resetPc := 0x1000 } = true ∧
    Config.wellFormed .rv64 { textBase := 0x1000, textEnd := 0x100C, resetPc := 0x1000 } = true := by decide

theorem witness_RunsOverPresentTextNeverFetchBadly :
    p1.inv = true ∧ p1.TextPresent ∧ p1Textual.inv = true ∧ p1Textual.TextPresent := by decide

theorem witness_LaunchedProgramRunsToItsEnd :
    p1.launched = true ∧ p1.textLength = 3 ∧
    ∀ k, k < p1.textLength → ∃ i, p1.instrAt k = .ok i ∧ ¬ OddRdStops p1 i.rd ∧ ¬ Pair0Stops p1 i.rd := by
  refine ⟨by decide, by decide, ?_⟩
  have hl : p1.textLength = 3 := by decide
  intro k hk
  rw [hl] at hk
  have : k = 0 ∨ k = 1 ∨ k = 2 := by omega
  have ho : ¬ OddRdStops p1 10 := fun h => absurd h.2.1 (by decide)
  have hp : ¬ Pair0Stops p1 10 := fun h => absurd h.2.1 (by decide)
  rcases this with rfl | rfl | rfl
  · exact ⟨.smar64 10 12 13, rfl, ho, hp⟩
  · exact ⟨.smar64 10 14 15, rfl, ho, hp⟩
  · exact ⟨.smar64 10 16 17, rfl, ho, hp⟩

theorem witness_TextualAndBinaryLevelsRunAlike : p1Textual.inv = true ∧ p1Textual.SameProgram := by
  refine ⟨by decide, by decide, ?_⟩
  intro k hk
  have hk' : k < 3 := hk
  have : k = 0 ∨ k = 1 ∨ k = 2 := by omega
  rcases this with rfl | rfl | rfl
  · exact ⟨.smar64 10 12 13, rfl, by decide⟩
  · exact ⟨.smar64 10 14 15, rfl, by decide⟩
  · exact ⟨.smar64 10 16 17, rfl, by decide⟩

/-- Two equal words, the second reading what the first wrote. -/
def twice : State := withText (on32 [(12, 3), (13, 4)]) [0x84D61577, 0x84D61577]

theorem witness_SecondAccumulationReadsTheFirst :
    ∃ t acc, step twice = .next t ∧ twice.fetch = .ok (.smar64 10 12 13) ∧
      t.fetch = .ok (.smar64 10 12 13) ∧ ¬ InAccumulator twice.xlen 10 12 ∧
      ¬ InAccumulator twice.xlen 10 13 ∧ twice.xlen = .rv32 ∧ (10 : RegNum).toNat / 2 ≠ 0 ∧
      accRead twice 10 = .ok acc :=
  ⟨_, _, rfl, rfl, rfl,
    by show ¬ ((12 : RegNum).toNat / 2 = (10 : RegNum).toNat / 2); decide,
    by show ¬ ((13 : RegNum).toNat / 2 = (10 : RegNum).toNat / 2); decide, rfl, by decide, rfl⟩

/-- Program P5's first two words on RV64, two different instructions on one accumulator. -/
def lanesTwice : State :=
  withText (on64 [(11, 0x8000000080000000), (12, 0x8000000080000000)]) [0x94C59577, 0x96C59577]

theorem witness_SecondAccumulationReadsTheFirst_rv64 :
    ∃ t acc, step lanesTwice = .next t ∧ lanesTwice.fetch = .ok (.kmar64 10 11 12) ∧
      t.fetch = .ok (.kmsr64 10 11 12) ∧ lanesTwice.xlen = .rv64 ∧ ¬ ((10 : RegNum) = 0) ∧
      accRead lanesTwice 10 = .ok acc :=
  ⟨_, _, rfl, rfl, rfl, rfl, by decide, rfl⟩

/-- The SMAR64 clause on RV64. -/
def twice64 : State := withText (on64 [(12, 3), (13, 4)]) [0x84D61577, 0x84D61577]

theorem witness_SecondAccumulationReadsTheFirst_smar64_rv64 :
    ∃ t acc, step twice64 = .next t ∧ twice64.fetch = .ok (.smar64 10 12 13) ∧
      t.fetch = .ok (.smar64 10 12 13) ∧ ¬ ((12 : RegNum) = 10) ∧ ¬ ((13 : RegNum) = 10) ∧
      twice64.xlen = .rv64 ∧ ¬ ((10 : RegNum) = 0) ∧ accRead twice64 10 = .ok acc :=
  ⟨_, _, rfl, rfl, rfl, by decide, by decide, rfl, by decide, rfl⟩

theorem witness_IntrinsicsReturnWhatTheInstructionsLeave :
    s64.core = .rv64 h64 ∧ ¬ (s64.cfg.x0Hardwired = true ∧ (31 : RegNum) = 0) ∧
    (s32 {}).core = .rv32 h32 ∧ (31 : RegNum).toNat / 2 ≠ 0 ∧ (s32 {}).cfg.oddRd = .ignoreBit0 :=
  ⟨rfl, by decide, rfl, by decide, rfl⟩

end Sys2Proof.Tests
end

section
/-! SUPPORT. Reading the state at either width, and what one accumulator access does to the registers: the
state rules that the statements about a single instruction rest on. -/

namespace Sys2Proof.Machine

open Sys2Proof.Statements

/-! ### The state at either width -/

theorem State.xlen_of_rv32 {s : State} {h : Hart 32} (hs : s.core = .rv32 h) : s.xlen = .rv32 := by
  simp only [State.xlen, hs]

theorem State.xlen_of_rv64 {s : State} {h : Hart 64} (hs : s.core = .rv64 h) : s.xlen = .rv64 := by
  simp only [State.xlen, hs]

theorem State.regVal_of_rv32 {s : State} {h : Hart 32} (hs : s.core = .rv32 h) (n : RegNum) :
    s.regVal n = (h.read s.cfg n).toNat := by
  simp only [State.regVal, hs]

theorem State.regVal_of_rv64 {s : State} {h : Hart 64} (hs : s.core = .rv64 h) (n : RegNum) :
    s.regVal n = (h.read s.cfg n).toNat := by
  simp only [State.regVal, hs]

theorem State.exists_rv32_of_xlen {s : State} (hx : s.xlen = .rv32) : ∃ h, s.core = .rv32 h := by
  cases hs : s.core with
  | rv32 h => exact ⟨h, rfl⟩
  | rv64 h => rw [State.xlen_of_rv64 hs] at hx; cases hx

theorem State.exists_rv64_of_xlen {s : State} (hx : s.xlen = .rv64) : ∃ h, s.core = .rv64 h := by
  cases hs : s.core with
  | rv32 h => rw [State.xlen_of_rv32 hs] at hx; cases hx
  | rv64 h => exact ⟨h, rfl⟩

@[simp] theorem State.setOvIf_regVal (s : State) (b : Bool) (n : RegNum) :
    (s.setOvIf b).regVal n = s.regVal n := by
  cases b <;> rfl

/-- The advance with the sum over naturals (rule R17). -/
theorem Hart.advance_eq {w : Nat} (h : Hart w) :
    h.advance = { h with pc := BitVec.ofNat w (h.pc.toNat + 4) } := by
  have hpc : toBits w (unsigned h.pc + 4) = BitVec.ofNat w (h.pc.toNat + 4) :=
    BitVec.eq_of_toNat_eq (by rw [toNat_toBits_add_four, BitVec.toNat_ofNat])
  rw [Hart.advance, hpc]

/-! ### Register writes (rule R11) -/

section
variable {w : Nat} {c : Config}

theorem isZeroReg_zero (c : Config) : isZeroReg c 0 = c.x0Hardwired := by
  simp [isZeroReg]

theorem Hart.read_write_self (h : Hart w) {n : RegNum} (hn : n ≠ 0) (v : BitVec w) :
    (h.write c n v).read c n = v := by
  rw [Hart.read_write, if_pos ⟨rfl, isZeroReg_of_ne hn⟩]

theorem Hart.read_write_of_ne (h : Hart w) {n k : RegNum} (hk : k ≠ n) (v : BitVec w) :
    (h.write c n v).read c k = h.read c k := by
  rw [Hart.read_write, if_neg fun e => hk e.1]

theorem Hart.read_write_zero (h : Hart w) (v : BitVec w) :
    (h.write c 0 v).read c 0 = if c.x0Hardwired = true then 0 else v := by
  cases hx : c.x0Hardwired with
  | true => exact Hart.read_zeroReg ((isZeroReg_zero c).trans hx)
  | false =>
    rw [Hart.read_write, if_pos ⟨rfl, (isZeroReg_zero c).trans hx⟩, if_neg Bool.false_ne_true]

end

/-! ### Register pairs and the accumulator's registers -/

/-- On RV32 the accumulator's registers are those with its pair number (rules R12, R46). -/
theorem inAccumulator_rv32_iff (rd n : RegNum) :
    InAccumulator .rv32 rd n ↔ pairNum n = pairNum rd := by
  rw [← BitVec.toNat_inj, pairNum_toNat, pairNum_toNat]
  exact Iff.rfl

theorem inAccumulator_rv64_iff (rd n : RegNum) : InAccumulator .rv64 rd n ↔ n = rd := Iff.rfl

@[simp] theorem pairNum_oddReg (d : BitVec 4) : pairNum (oddReg d) = d :=
  BitVec.eq_of_toNat_eq (by rw [pairNum_toNat, oddReg_toNat]; omega)

@[simp] theorem pairNum_evenReg (d : BitVec 4) : pairNum (evenReg d) = d :=
  BitVec.eq_of_toNat_eq (by rw [pairNum_toNat, evenReg_toNat]; omega)

@[simp] theorem oddReg_zero : oddReg 0 = 1 := by decide

@[simp] theorem evenReg_zero : evenReg 0 = 0 := by decide

theorem pairNum_eq_zero_iff (rd : RegNum) : pairNum rd = 0 ↔ rd.toNat / 2 = 0 := by
  rw [← BitVec.toNat_inj, pairNum_toNat]
  exact Iff.rfl

/-- Rule R46: an odd `rd` is not refused where the configuration ignores its bit 0. -/
theorem oddRdRefused_eq_false {c : Config} {rd : RegNum}
    (ho : rd.toNat % 2 = 1 → c.oddRd = .ignoreBit0) : oddRdRefused c rd = false := by
  have hbit : rd.getLsbD 0 = decide (rd.toNat % 2 = 1) := by
    simp [BitVec.getLsbD, Nat.testBit_zero]
  by_cases hodd : rd.toNat % 2 = 1
  · simp [oddRdRefused, ho hodd]
  · simp only [oddRdRefused, hbit, decide_eq_false hodd, Bool.false_and]

/-! ### Pair accesses -/

section
variable {c : Config} (h : Hart 32)

theorem pairRead_literal (hp : c.pair0 = .literal) :
    pairRead c h 0 = .ok (h.read c 1 ++ h.read c 0) := by
  simp only [pairRead, hp, if_true]

theorem pairRead_zeroDiscard (hp : c.pair0 = .zeroDiscard) : pairRead c h 0 = .ok 0 := by
  simp only [pairRead, hp, if_true]

theorem pairWrite_literal (hp : c.pair0 = .literal) (v : DWord) :
    pairWrite c h 0 v = .ok ((h.write c 1 (highElement v)).write c 0 (lowElement v)) := by
  simp only [pairWrite, hp, if_true]

theorem pairWrite_zeroDiscard (hp : c.pair0 = .zeroDiscard) (v : DWord) :
    pairWrite c h 0 v = .ok h := by
  simp only [pairWrite, hp, if_true]

end

/-- A pair read depends on the two registers of the pair alone (rule R13). -/
theorem pairRead_congr {c : Config} {h g : Hart 32} {d : BitVec 4}
    (hodd : g.read c (oddReg d) = h.read c (oddReg d))
    (heven : g.read c (evenReg d) = h.read c (evenReg d)) : pairRead c g d = pairRead c h d := by
  unfold pairRead
  by_cases hd : d = 0
  · subst hd
    rw [oddReg_zero] at hodd
    rw [evenReg_zero] at heven
    rw [if_pos rfl, if_pos rfl, hodd, heven]
  · rw [if_neg hd, if_neg hd, hodd, heven]

/-- A pair write that is not refused drops the value or writes both registers of the pair (rule R14). -/
theorem pairWrite_ok_cases {c : Config} {h h' : Hart 32} {d : BitVec 4} {v : DWord}
    (hw : pairWrite c h d v = .ok h') :
    h' = h ∨ h' = (h.write c (oddReg d) (highElement v)).write c (evenReg d) (lowElement v) := by
  rcases pairWrite_cases c h d v with ⟨-, -, e⟩ | ⟨rfl, -, e⟩ | ⟨-, -, e⟩ | ⟨-, e⟩
  · rw [hw] at e; cases e
  · exact .inr (Except.ok.inj (hw.symm.trans e))
  · exact .inl (Except.ok.inj (hw.symm.trans e))
  · exact .inr (Except.ok.inj (hw.symm.trans e))

/-- A pair write leaves every register of another pair as it was. -/
theorem pairWrite_read_of_pairNum_ne {c : Config} {h h' : Hart 32} {d : BitVec 4} {v : DWord}
    (hw : pairWrite c h d v = .ok h') {n : RegNum} (hn : pairNum n ≠ d) :
    h'.read c n = h.read c n := by
  have hodd : n ≠ oddReg d := fun e => hn (by rw [e, pairNum_oddReg])
  have heven : n ≠ evenReg d := fun e => hn (by rw [e, pairNum_evenReg])
  rcases pairWrite_ok_cases hw with rfl | rfl
  · rfl
  · rw [Hart.read_write_of_ne _ heven, Hart.read_write_of_ne _ hodd]

/-- Whether a pair write is refused does not depend on the registers, and registers that read alike before it read alike
after it. -/
theorem pairWrite_congr {c : Config} {h h' : Hart 32} {d : BitVec 4} {v : DWord} (g : Hart 32)
    (hw : pairWrite c h d v = .ok h') :
    ∃ g', pairWrite c g d v = .ok g' ∧ ∀ n, g.read c n = h.read c n → g'.read c n = h'.read c n := by
  unfold pairWrite at hw ⊢
  by_cases hd : d = 0
  · rw [if_pos hd] at hw ⊢
    cases hp : c.pair0 <;> rw [hp] at hw
    case refuse => cases hw
    case literal =>
      obtain rfl := Except.ok.inj hw
      exact ⟨_, rfl, fun n hn => by simp only [Hart.read_write, hn]⟩
    case zeroDiscard =>
      obtain rfl := Except.ok.inj hw
      exact ⟨_, rfl, fun n hn => hn⟩
  · rw [if_neg hd] at hw ⊢
    obtain rfl := Except.ok.inj hw
    exact ⟨_, rfl, fun n hn => by simp only [Hart.read_write, hn]⟩

/-! ### Accumulator accesses -/

/-- An accumulator read depends on the accumulator's registers alone (rule R59). -/
theorem accRead_congr {s s' : State} {rd : RegNum} (hc : s'.cfg = s.cfg) (hx : s'.xlen = s.xlen)
    (hr : ∀ n, InAccumulator s.xlen rd n → s'.regVal n = s.regVal n) :
    accRead s' rd = accRead s rd := by
  cases hs : s.core with
  | rv32 h =>
    obtain ⟨g, hg⟩ := State.exists_rv32_of_xlen (hx.trans (State.xlen_of_rv32 hs))
    have hread : ∀ n, pairNum n = pairNum rd → g.read s.cfg n = h.read s.cfg n := fun n hn => by
      have := hr n (by rwa [State.xlen_of_rv32 hs, inAccumulator_rv32_iff])
      rw [State.regVal_of_rv32 hg, State.regVal_of_rv32 hs, hc] at this
      exact BitVec.eq_of_toNat_eq this
    simp only [accRead, hs, hg, hc,
      pairRead_congr (hread _ (pairNum_oddReg _)) (hread _ (pairNum_evenReg _))]
  | rv64 h =>
    obtain ⟨g, hg⟩ := State.exists_rv64_of_xlen (hx.trans (State.xlen_of_rv64 hs))
    have := hr rd (by rw [State.xlen_of_rv64 hs, inAccumulator_rv64_iff])
    rw [State.regVal_of_rv64 hg, State.regVal_of_rv64 hs, hc] at this
    simp only [accRead, hs, hg, hc, BitVec.eq_of_toNat_eq this]

/-- The answer of an accumulator write at each width. -/
theorem accWrite_ok_cases {s u : State} {rd : RegNum} {v : DWord} (hw : accWrite s rd v = .ok u) :
    (∃ h h', s.core = .rv32 h ∧ pairWrite s.cfg h (pairNum rd) v = .ok h' ∧
      u = { s with core := .rv32 h' }) ∨
    (∃ h, s.core = .rv64 h ∧ u = { s with core := .rv64 (h.write s.cfg rd v) }) := by
  unfold accWrite at hw
  cases hs : s.core with
  | rv64 h =>
    simp only [hs] at hw
    exact .inr ⟨h, rfl, (Except.ok.inj hw).symm⟩
  | rv32 h =>
    simp only [hs] at hw
    cases hp : pairWrite s.cfg h (pairNum rd) v with
    | error r => rw [hp] at hw; cases hw
    | ok h' =>
      rw [hp] at hw
      exact .inl ⟨h, h', rfl, hp, (Except.ok.inj hw).symm⟩

theorem accWrite_ov {s u : State} {rd : RegNum} {v : DWord} (hw : accWrite s rd v = .ok u) :
    u.ov = s.ov := by
  rcases accWrite_ok_cases hw with ⟨h, h', -, -, rfl⟩ | ⟨h, -, rfl⟩ <;> rfl

/-- An accumulator write leaves every register outside the accumulator as it was (rule R16). -/
theorem accWrite_regVal_of_not_inAccumulator {s u : State} {rd : RegNum} {v : DWord}
    (hw : accWrite s rd v = .ok u) {n : RegNum} (hn : ¬ InAccumulator s.xlen rd n) :
    u.regVal n = s.regVal n := by
  rcases accWrite_ok_cases hw with ⟨h, h', hs, hp, rfl⟩ | ⟨h, hs, rfl⟩
  · rw [State.xlen_of_rv32 hs, inAccumulator_rv32_iff] at hn
    rw [State.regVal_of_rv32 hs, State.regVal_of_rv32 rfl, pairWrite_read_of_pairNum_ne hp hn]
  · rw [State.xlen_of_rv64 hs, inAccumulator_rv64_iff] at hn
    rw [State.regVal_of_rv64 hs, State.regVal_of_rv64 rfl, Hart.read_write_of_ne _ hn]

/-- Whether an accumulator write is refused depends on the parameters and the width alone, and registers that read alike
before it read alike after it. -/
theorem accWrite_congr {s s' u : State} {rd : RegNum} {v : DWord} (hw : accWrite s rd v = .ok u)
    (hc : s'.cfg = s.cfg) (hx : s'.xlen = s.xlen) :
    ∃ u', accWrite s' rd v = .ok u' ∧ ∀ n, s'.regVal n = s.regVal n → u'.regVal n = u.regVal n := by
  rcases accWrite_ok_cases hw with ⟨h, h', hs, hp, rfl⟩ | ⟨h, hs, rfl⟩
  · obtain ⟨g, hg⟩ := State.exists_rv32_of_xlen (hx.trans (State.xlen_of_rv32 hs))
    obtain ⟨g', hp', hread⟩ := pairWrite_congr g hp
    refine ⟨{ s' with core := .rv32 g' }, by simp only [accWrite, hg, hc, hp'], fun n hn => ?_⟩
    rw [State.regVal_of_rv32 hg, State.regVal_of_rv32 hs, hc] at hn
    rw [State.regVal_of_rv32 rfl, State.regVal_of_rv32 rfl]
    simp only [hc, hread n (BitVec.eq_of_toNat_eq hn)]
  · obtain ⟨g, hg⟩ := State.exists_rv64_of_xlen (hx.trans (State.xlen_of_rv64 hs))
    refine ⟨{ s' with core := .rv64 (g.write s'.cfg rd v) }, by simp only [accWrite, hg],
      fun n hn => ?_⟩
    rw [State.regVal_of_rv64 hg, State.regVal_of_rv64 hs, hc] at hn
    rw [State.regVal_of_rv64 rfl, State.regVal_of_rv64 rfl]
    simp only [hc, Hart.read_write, BitVec.eq_of_toNat_eq hn]

end Sys2Proof.Machine
end

section
/-! SUPPORT. What an instruction writes, said by its rule (R63 to R70), and one execution as its two accumulator
accesses. -/

namespace Sys2Proof.Machine

open Sys2Proof.Statements

/-! ### The narrowing of an instruction is its rule's -/

theorem satQ63_eq (z : Int) : satQ63 z = (BitVec.ofInt 64 (toQ63 z), outsideQ63 z) := by
  unfold satQ63
  split
  · have hz : toQ63 z = 2 ^ 63 - 1 := by simp only [toQ63]; omega
    have ho : outsideQ63 z = true := by simp only [outsideQ63, decide_eq_true_eq]; omega
    rw [hz, ho]; rfl
  · split
    · have hz : toQ63 z = -2 ^ 63 := by simp only [toQ63]; omega
      have ho : outsideQ63 z = true := by simp only [outsideQ63, decide_eq_true_eq]; omega
      rw [hz, ho]; rfl
    · have hz : toQ63 z = z := by simp only [toQ63]; omega
      have ho : outsideQ63 z = false := by simp only [outsideQ63, decide_eq_false_iff_not]; omega
      rw [hz, ho]

theorem satU64_eq (z : Int) : satU64 z = (BitVec.ofInt 64 (toU64 z), outsideU64 z) := by
  unfold satU64
  split
  · have hz : toU64 z = 2 ^ 64 - 1 := by simp only [toU64]; omega
    have ho : outsideU64 z = true := by simp only [outsideU64, decide_eq_true_eq]; omega
    rw [hz, ho]; rfl
  · split
    · have hz : toU64 z = 0 := by simp only [toU64]; omega
      have ho : outsideU64 z = true := by simp only [outsideU64, decide_eq_true_eq]; omega
      rw [hz, ho]; rfl
    · have hz : toU64 z = z := by simp only [toU64]; omega
      have ho : outsideU64 z = false := by simp only [outsideU64, decide_eq_false_iff_not]; omega
      rw [hz, ho]

/-- The narrowing of every instruction is that of its rule's exact result. On RV64 the model adds the sum of both lane
products, and the rule adds one product after the other. -/
theorem narrowing_eq_rule (i : Instr) (s : State) (acc : DWord) :
    narrowing i s acc = (BitVec.ofInt 64 ((ruleOf i.mnemonic).narrow (exactResult i s acc)),
      (ruleOf i.mnemonic).setsOv (exactResult i s acc)) := by
  cases hs : s.core with
  | rv32 h =>
    cases i <;>
      simp only [narrowing, satQ63_eq, satU64_eq, wrap64, exactResult, ruleOf, Instr.mnemonic, Instr.rs1,
        Instr.rs2, prodSumS, prodSumU, productS, productU, smul32, umul32, hs]
  | rv64 h =>
    cases i <;>
      simp only [narrowing, satQ63_eq, satU64_eq, wrap64, exactResult, ruleOf, Instr.mnemonic, Instr.rs1,
        Instr.rs2, prodSumS, prodSumU, productS, productU, smul32, umul32, lowElement, highElement, hs,
        ← add_assoc, ← sub_sub]

/-- The four wrapping instructions never set OV. -/
theorem setsOv_of_not_isSaturating {m : Mnemonic} (hm : isSaturating m = false) (z : Int) :
    (ruleOf m).setsOv z = false := by
  cases m
  case smar64 | smsr64 | umar64 | umsr64 => rfl
  all_goals cases hm

/-- The exact result of an RV32 instruction is its rule's on the registers read. -/
theorem exactResult_make_rv32 {s : State} {h : Hart 32} (hs : s.core = .rv32 h) (m : Mnemonic)
    (rd rs1 rs2 : RegNum) (acc : DWord) :
    exactResult (Instr.make m rd rs1 rs2) s acc =
      (ruleOf m).rv32 acc (h.read s.cfg rs1) (h.read s.cfg rs2) := by
  simp only [exactResult, hs, Instr.make_mnemonic, Instr.make_rs1, Instr.make_rs2]

/-- The product terms depend on the two multiplicands' values alone (rule R61). -/
theorem prodSum_congr {s s' : State} {a b : RegNum} (hc : s'.cfg = s.cfg) (hx : s'.xlen = s.xlen)
    (ha : s'.regVal a = s.regVal a) (hb : s'.regVal b = s.regVal b) :
    prodSumS s' a b = prodSumS s a b ∧ prodSumU s' a b = prodSumU s a b := by
  cases hs : s.core with
  | rv32 h =>
    obtain ⟨g, hg⟩ := State.exists_rv32_of_xlen (hx.trans (State.xlen_of_rv32 hs))
    rw [State.regVal_of_rv32 hg, State.regVal_of_rv32 hs, hc] at ha hb
    simp only [prodSumS, prodSumU, hs, hg, hc, BitVec.eq_of_toNat_eq ha, BitVec.eq_of_toNat_eq hb,
      and_self]
  | rv64 h =>
    obtain ⟨g, hg⟩ := State.exists_rv64_of_xlen (hx.trans (State.xlen_of_rv64 hs))
    rw [State.regVal_of_rv64 hg, State.regVal_of_rv64 hs, hc] at ha hb
    simp only [prodSumS, prodSumU, hs, hg, hc, BitVec.eq_of_toNat_eq ha, BitVec.eq_of_toNat_eq hb,
      and_self]

/-- An instruction's narrowing reads the state through its product term alone. -/
theorem narrowing_congr {i : Instr} {s s' : State}
    (hp : prodSumS s' i.rs1 i.rs2 = prodSumS s i.rs1 i.rs2 ∧
      prodSumU s' i.rs1 i.rs2 = prodSumU s i.rs1 i.rs2) :
    narrowing i s' = narrowing i s := by
  obtain ⟨hS, hU⟩ := hp
  funext acc
  cases i <;> simp only [Instr.rs1, Instr.rs2] at hS hU <;> simp only [narrowing, hS, hU]

/-! ### One execution as its two accumulator accesses -/

/-- An execution completes exactly when both accumulator accesses do, and its next state is then the written one
with OV set where the result saturated and `pc` advanced (rule R62). -/
theorem exec_eq_next_iff {i : Instr} {s t : State} :
    exec i s = .next t ↔ ∃ acc u, accRead s i.rd = .ok acc ∧
      accWrite s i.rd (narrowing i s acc).1 = .ok u ∧
      t = (u.setOvIf (narrowing i s acc).2).advance := by
  rw [exec_eq_accumulate]
  unfold accumulate
  cases hr : accRead s i.rd with
  | error r => simp
  | ok acc =>
    cases hw : accWrite s i.rd (narrowing i s acc).1 with
    | error r => simp [hw]
    | ok u => simp [hw, eq_comm]

/-- OV after an instruction: OV before it, or set by its rule on the exact result (rule R18). -/
theorem exec_next_ov {i : Instr} {s t : State} {acc : DWord} (he : exec i s = .next t)
    (ha : accRead s i.rd = .ok acc) :
    t.ov = (s.ov || (ruleOf i.mnemonic).setsOv (exactResult i s acc)) := by
  obtain ⟨acc', u, hr, hw, rfl⟩ := exec_eq_next_iff.mp he
  obtain rfl : acc' = acc := Except.ok.inj (hr.symm.trans ha)
  rw [State.advance_ov, State.setOvIf_ov, accWrite_ov hw, narrowing_eq_rule]

/-- An execution leaves every register outside the accumulator as it was (rule R16). -/
theorem exec_next_regVal {i : Instr} {s t : State} (he : exec i s = .next t) {n : RegNum}
    (hn : ¬ InAccumulator s.xlen i.rd n) : t.regVal n = s.regVal n := by
  obtain ⟨acc, u, -, hw, rfl⟩ := exec_eq_next_iff.mp he
  rw [State.advance_regVal, State.setOvIf_regVal, accWrite_regVal_of_not_inAccumulator hw hn]

/-- An execution that completes has read its accumulator. -/
theorem exists_accRead_of_exec_next {i : Instr} {s t : State} (he : exec i s = .next t) :
    ∃ acc, accRead s i.rd = .ok acc := by
  obtain ⟨acc, u, hr, -, -⟩ := exec_eq_next_iff.mp he
  exact ⟨acc, hr⟩

/-- From a state that agrees in the parameters, the width, the multiplicands and the accumulator, an execution completes
too; its accumulator ends alike, and OV ends alike where it began alike (rule R16). -/
theorem exec_congr {i : Instr} {s s' t : State} (he : exec i s = .next t) (hc : s'.cfg = s.cfg)
    (hx : s'.xlen = s.xlen) (h1 : s'.regVal i.rs1 = s.regVal i.rs1) (h2 : s'.regVal i.rs2 = s.regVal i.rs2)
    (hacc : ∀ n, InAccumulator s.xlen i.rd n → s'.regVal n = s.regVal n) :
    ∃ t', exec i s' = .next t' ∧ (∀ n, InAccumulator s.xlen i.rd n → t'.regVal n = t.regVal n) ∧
      (s'.ov = s.ov → t'.ov = t.ov) := by
  obtain ⟨acc, u, hr, hw, rfl⟩ := exec_eq_next_iff.mp he
  have hn : narrowing i s' = narrowing i s := narrowing_congr (prodSum_congr hc hx h1 h2)
  obtain ⟨u', hw', hreg⟩ := accWrite_congr hw hc hx
  refine ⟨_, exec_eq_next_iff.mpr ⟨acc, u', (accRead_congr hc hx hacc).trans hr, by rw [hn, hw'], rfl⟩,
    fun n hin => ?_, fun hov => ?_⟩
  · simp only [State.advance_regVal, State.setOvIf_regVal, hreg n (hacc n hin)]
  · simp only [State.advance_ov, State.setOvIf_ov, accWrite_ov hw, accWrite_ov hw', hov, hn]

/-- On RV32, where no odd `rd` is refused, `rd` enters through its pair number alone (rule R46). -/
theorem exec_make_eq_of_pairNum_eq {m : Mnemonic} {rd rd' rs1 rs2 : RegNum} {s : State} {h : Hart 32}
    (hs : s.core = .rv32 h) (ho : s.cfg.oddRd = .ignoreBit0) (hd : pairNum rd' = pairNum rd) :
    exec (Instr.make m rd rs1 rs2) s = exec (Instr.make m rd' rs1 rs2) s := by
  have hodd : ∀ r, oddRdRefused s.cfg r = false := fun r => oddRdRefused_eq_false fun _ => ho
  have hr : accRead s rd' = accRead s rd := by simp only [accRead, hs, hodd, hd]
  have hw : ∀ v, accWrite s rd' v = accWrite s rd v := fun v => by simp only [accWrite, hs, hd]
  have hn : narrowing (Instr.make m rd' rs1 rs2) s = narrowing (Instr.make m rd rs1 rs2) s := by
    cases m <;> rfl
  simp only [exec_eq_accumulate, Instr.make_rd, hn, accumulate, hr, hw]

/-- An RV32 execution, from what its pair read and its pair write answer. -/
theorem exec_make_rv32 {m : Mnemonic} {rd rs1 rs2 : RegNum} {s : State} {h h' : Hart 32} {acc : DWord}
    {z : Int} {d : BitVec 4} (hs : s.core = .rv32 h) (hd : pairNum rd = d)
    (ho : rd.toNat % 2 = 1 → s.cfg.oddRd = .ignoreBit0)
    (hz : z = (ruleOf m).rv32 acc (h.read s.cfg rs1) (h.read s.cfg rs2))
    (hr : pairRead s.cfg h d = .ok acc)
    (hw : pairWrite s.cfg h d (BitVec.ofInt 64 ((ruleOf m).narrow z)) = .ok h') :
    exec (Instr.make m rd rs1 rs2) s =
      .next { s with core := .rv32 h'.advance, ov := s.ov || (ruleOf m).setsOv z } := by
  rw [← exactResult_make_rv32 hs m rd] at hz
  have hn := narrowing_eq_rule (Instr.make m rd rs1 rs2) s acc
  rw [← hz, Instr.make_mnemonic] at hn
  refine exec_eq_next_iff.mpr ⟨acc, { s with core := .rv32 h' }, ?_, ?_, ?_⟩
  · simp only [accRead, hs, hd, Instr.make_rd, oddRdRefused_eq_false ho, Bool.false_eq_true, if_false, hr]
  · simp only [accWrite, hs, hd, Instr.make_rd, hn, hw]
  · rw [hn]
    cases (ruleOf m).setsOv z <;> simp [State.setOvIf, State.advance]

end Sys2Proof.Machine
end

section
/-! SUPPORT. What an execution does not read: OV and the level of the program text. -/

namespace Sys2Proof.Machine

theorem narrowing_withOv (i : Instr) (s : State) (b : Bool) :
    narrowing i { s with ov := b } = narrowing i s :=
  narrowing_congr ⟨rfl, rfl⟩

theorem narrowing_atLevel (i : Instr) (s : State) (b : Bool) :
    narrowing i (s.atLevel b) = narrowing i s :=
  narrowing_congr ⟨rfl, rfl⟩

/-- An accumulator write neither reads nor changes OV. -/
theorem accWrite_withOv (s : State) (rd : RegNum) (v : DWord) (b : Bool) :
    accWrite { s with ov := b } rd v = (accWrite s rd v).map fun u => { u with ov := b } := by
  unfold accWrite
  cases s.core with
  | rv32 h => cases hp : pairWrite s.cfg h (pairNum rd) v <;> simp only [hp, Except.map]
  | rv64 h => rfl

/-- An accumulator write neither reads nor changes the level. -/
theorem accWrite_atLevel (s : State) (rd : RegNum) (v : DWord) (b : Bool) :
    accWrite (s.atLevel b) rd v = (accWrite s rd v).map fun u => u.atLevel b := by
  have hp : ∀ h, pairWrite (s.atLevel b).cfg h (pairNum rd) v = pairWrite s.cfg h (pairNum rd) v :=
    fun _ => rfl
  unfold accWrite
  rw [State.atLevel_core]
  cases s.core with
  | rv32 h =>
    simp only [hp]
    cases pairWrite s.cfg h (pairNum rd) v <;> rfl
  | rv64 h => rfl

theorem State.setOvIf_advance_atLevel (s : State) (f b : Bool) :
    ((s.atLevel b).setOvIf f).advance = ((s.setOvIf f).advance).atLevel b := by
  unfold State.advance
  rw [State.setOvIf_core, State.setOvIf_core, State.atLevel_core]
  cases s.core <;> cases f <;> rfl

theorem State.setOvIf_advance_withOv (s : State) (f b : Bool) :
    (State.setOvIf { s with ov := b } f).advance = { (s.setOvIf f).advance with ov := b || f } := by
  unfold State.advance
  rw [State.setOvIf_core, State.setOvIf_core]
  cases s.core <;> cases f <;> simp [State.setOvIf]

/-- Rule R18: with another value of OV an instruction answers the same, OV apart. -/
theorem exec_withOv (i : Instr) (s : State) (b : Bool) :
    ∃ c, exec i { s with ov := b } = onNext (fun t => { t with ov := c }) (exec i s) := by
  have hr : accRead { s with ov := b } i.rd = accRead s i.rd := rfl
  rw [exec_eq_accumulate, exec_eq_accumulate, narrowing_withOv]
  unfold accumulate
  rw [hr]
  cases accRead s i.rd with
  | error r => exact ⟨b, rfl⟩
  | ok acc =>
    refine ⟨b || (narrowing i s acc).2, ?_⟩
    simp only [accWrite_withOv]
    cases accWrite s i.rd (narrowing i s acc).1 with
    | error r => rfl
    | ok u => simp only [Except.map, onNext, State.setOvIf_advance_withOv]

/-- An execution does not read the level of the program text. -/
theorem exec_atLevel (i : Instr) (s : State) (b : Bool) :
    exec i (s.atLevel b) = onNext (fun t => t.atLevel b) (exec i s) := by
  have hr : accRead (s.atLevel b) i.rd = accRead s i.rd := rfl
  rw [exec_eq_accumulate, exec_eq_accumulate, narrowing_atLevel]
  unfold accumulate
  rw [hr]
  cases accRead s i.rd with
  | error r => rfl
  | ok acc =>
    simp only [accWrite_atLevel]
    cases accWrite s i.rd (narrowing i s acc).1 with
    | error r => rfl
    | ok u => simp only [Except.map, onNext, State.setOvIf_advance_atLevel]

end Sys2Proof.Machine
end

section
/-! SUPPORT. The decoder on an encoded word (rules R44 to R48): the operand fields lie outside the row mask, and the match
word and the other two fields lie outside each operand field. -/

namespace Sys2Proof

/-- Rule R45: the row mask of an encoded word gives its row's match word. -/
theorem encode_and_rowMask (i : Instr) : encode i &&& rowMask = i.mnemonic.matchWord := by
  have hm : ∀ m : Mnemonic, m.matchWord &&& rowMask = m.matchWord := by
    intro m; cases m <;> decide
  have h20 : ∀ r : RegNum, r.setWidth 32 <<< 20 &&& rowMask = 0#32 := by decide
  have h15 : ∀ r : RegNum, r.setWidth 32 <<< 15 &&& rowMask = 0#32 := by decide
  have h7 : ∀ r : RegNum, r.setWidth 32 <<< 7 &&& rowMask = 0#32 := by decide
  simp only [encode, BitVec.and_or_distrib_right, hm, h20, h15, h7, BitVec.or_zero]

/-- Rule R46: the `rd` field of an encoded word. -/
theorem rdField_encode (i : Instr) : rdField (encode i) = i.rd := by
  have hm : ∀ m : Mnemonic, m.matchWord.extractLsb' 7 5 = 0#5 := by intro m; cases m <;> decide
  have h20 : ∀ r : RegNum, (r.setWidth 32 <<< 20).extractLsb' 7 5 = 0#5 := by decide
  have h15 : ∀ r : RegNum, (r.setWidth 32 <<< 15).extractLsb' 7 5 = 0#5 := by decide
  have h7 : ∀ r : RegNum, (r.setWidth 32 <<< 7).extractLsb' 7 5 = r := by decide
  simp only [rdField, encode, BitVec.extractLsb'_or, hm, h20, h15, h7, BitVec.zero_or]

/-- Rule R46: the `rs1` field of an encoded word. -/
theorem rs1Field_encode (i : Instr) : rs1Field (encode i) = i.rs1 := by
  have hm : ∀ m : Mnemonic, m.matchWord.extractLsb' 15 5 = 0#5 := by intro m; cases m <;> decide
  have h20 : ∀ r : RegNum, (r.setWidth 32 <<< 20).extractLsb' 15 5 = 0#5 := by decide
  have h15 : ∀ r : RegNum, (r.setWidth 32 <<< 15).extractLsb' 15 5 = r := by decide
  have h7 : ∀ r : RegNum, (r.setWidth 32 <<< 7).extractLsb' 15 5 = 0#5 := by decide
  simp only [rs1Field, encode, BitVec.extractLsb'_or, hm, h20, h15, h7, BitVec.zero_or, BitVec.or_zero]

/-- Rule R46: the `rs2` field of an encoded word. -/
theorem rs2Field_encode (i : Instr) : rs2Field (encode i) = i.rs2 := by
  have hm : ∀ m : Mnemonic, m.matchWord.extractLsb' 20 5 = 0#5 := by intro m; cases m <;> decide
  have h20 : ∀ r : RegNum, (r.setWidth 32 <<< 20).extractLsb' 20 5 = r := by decide
  have h15 : ∀ r : RegNum, (r.setWidth 32 <<< 15).extractLsb' 20 5 = 0#5 := by decide
  have h7 : ∀ r : RegNum, (r.setWidth 32 <<< 7).extractLsb' 20 5 = 0#5 := by decide
  simp only [rs2Field, encode, BitVec.extractLsb'_or, hm, h20, h15, h7, BitVec.zero_or, BitVec.or_zero]

/-- A match word finds its own row (rules R44, R45). -/
theorem find_row_matchWord (n : Mnemonic) :
    (Mnemonic.all.find? fun m => n.matchWord == m.matchWord) = some n := by
  cases n <;> decide

/-- Rule R48: an encoded instruction decodes to itself. -/
theorem decodeWord_encode (i : Instr) : decodeWord (encode i) = .ok i := by
  simp only [decodeWord, encode_and_rowMask, find_row_matchWord, rdField_encode, rs1Field_encode,
    rs2Field_encode, Instr.make_eta]

end Sys2Proof
end

section
/-! SUPPORT. The fetch at each level, what a step keeps, and how a run unrolls. -/

namespace Sys2Proof.Machine

open Sys2Proof.Statements

/-! ### The fetch at each level -/

theorem State.pcInText_iff (s : State) : s.pcInText = true ↔
    s.pcVal % 4 = 0 ∧ s.cfg.textBase ≤ s.pcVal ∧ s.pcVal < s.cfg.textEnd := by
  simp only [State.pcInText, Bool.and_eq_true, decide_eq_true_eq, and_assoc]

/-- The textual fetch of a listed record that is an instruction (rules R17, R26). -/
theorem State.fetch_of_listing {s : State} {l : AsmLine} {i : Instr} (hin : s.pcInText = true)
    (hb : s.cfg.binaryLevel = false)
    (hl : s.listing[(s.pcVal - s.cfg.textBase) / 4]? = some l) (hi : l.toInstr = .ok i) :
    s.fetch = .ok i := by
  simp [State.fetch, hin, hb, State.fetchTextual, hl, hi, refuseDecode]

/-- The binary fetch of an encoded instruction (rules R27, R48). -/
theorem State.fetch_of_readWord_encode {s : State} {i : Instr} (hin : s.pcInText = true)
    (hb : s.cfg.binaryLevel = true) (hw : Memory.readWord s.mem s.pcVal = some (encode i)) :
    s.fetch = .ok i := by
  simp [State.fetch, hin, hb, State.fetchBinary, hw, decodeWord_encode, refuseDecode]

/-! ### Well-placed states -/

theorem Config.wellFormed_iff (x : Xlen) (c : Config) : c.wellFormed x = true ↔
    c.textBase % 4 = 0 ∧ c.textEnd % 4 = 0 ∧ c.textBase ≤ c.textEnd ∧ c.textEnd < 2 ^ x.bits ∧
      c.resetPc < 2 ^ x.bits := by
  simp only [Config.wellFormed, Bool.and_eq_true, decide_eq_true_eq, and_assoc]

theorem State.inv_iff (s : State) : s.inv = true ↔
    s.cfg.wellFormed s.xlen = true ∧ Memory.wf s.mem = true ∧ s.pcVal % 4 = 0 ∧
      s.cfg.textBase ≤ s.pcVal ∧ s.pcVal ≤ s.cfg.textEnd := by
  simp only [State.inv, Bool.and_eq_true, decide_eq_true_eq, and_assoc]

/-- The parameters, the program text and the width are those before a step (rules R25, R26). -/
theorem step_next_frame {s t : State} (h : step s = .next t) :
    t.cfg = s.cfg ∧ t.mem = s.mem ∧ t.listing = s.listing ∧ t.xlen = s.xlen ∧
      t.pcVal = (s.pcVal + 4) % 2 ^ s.xlen.bits := by
  obtain ⟨-, -, i, -, he⟩ := step_next h
  exact exec_next_frame he

/-- A step is taken at a multiple of 4 below `text_end`, itself a multiple of 4 below 2^XLEN, so `pc` neither wraps nor
passes the end. -/
theorem step_keeps_inv {s t : State} (hs : s.inv = true) (h : step s = .next t) : t.inv = true := by
  obtain ⟨hcfg, hmem, -, hx, hpc⟩ := step_next_frame h
  obtain ⟨-, hin, -⟩ := step_next h
  obtain ⟨hwf, hm, -, -, -⟩ := (State.inv_iff s).mp hs
  obtain ⟨-, hend, -, hlt, -⟩ := (Config.wellFormed_iff _ _).mp hwf
  obtain ⟨hal, hge, hbelow⟩ := (State.pcInText_iff s).mp hin
  have hnowrap : t.pcVal = s.pcVal + 4 := by rw [hpc, Nat.mod_eq_of_lt (by omega)]
  rw [State.inv_iff, hcfg, hmem, hx, hnowrap]
  exact ⟨hwf, hm, by omega, by omega, by omega⟩

/-! ### Runs -/

/-- A run of one more step that completes is a step and the run from its next state. -/
theorem exists_step_of_run_succ {k : Nat} {s t : State} (h : Sys2Proof.core.run (k + 1) s = .next t) :
    ∃ s', step s = .next s' ∧ Sys2Proof.core.run k s' = .next t := by
  rcases step_cases s with ⟨s', hs⟩ | ⟨r, hs⟩
  · exact ⟨s', hs, (run_succ_next k hs).symm.trans h⟩
  · rw [run_succ_refused k hs] at h
    cases h

/-- What holds of some state that a run passes through holds of its first state or of one passed through later. -/
theorem exists_passed_succ_iff {s s' : State} (h : step s = .next s') (P : State → Prop) (k : Nat) :
    (∃ j u, j < k + 1 ∧ Sys2Proof.core.run j s = .next u ∧ P u) ↔
      P s ∨ ∃ j u, j < k ∧ Sys2Proof.core.run j s' = .next u ∧ P u := by
  constructor
  · rintro ⟨_ | j, u, hj, hu, hP⟩
    · exact .inl (Host.Outcome.next.inj hu ▸ hP)
    · exact .inr ⟨j, u, by omega, (run_succ_next j h).symm.trans hu, hP⟩
  · rintro (hP | ⟨j, u, hj, hu, hP⟩)
    · exact ⟨0, s, by omega, rfl, hP⟩
    · exact ⟨j + 1, u, by omega, (run_succ_next j h).trans hu, hP⟩

/-! ### OV along a run -/

/-- The instruction that a step from `u` would run has an exact result outside its rule's range (rules R18, R73). -/
def SaturatesAt (u : State) : Prop :=
  ∃ (i : Instr) (acc : DWord), u.fetch = .ok i ∧ accRead u i.rd = .ok acc ∧
    (ruleOf i.mnemonic).setsOv (exactResult i u acc) = true

/-- OV after a step is 1 exactly if it was 1 before or the step's instruction saturated. -/
theorem step_ov_iff {s t : State} (h : step s = .next t) :
    t.ov = true ↔ s.ov = true ∨ SaturatesAt s := by
  obtain ⟨-, -, i, hi, he⟩ := step_next h
  obtain ⟨acc, ha⟩ := exists_accRead_of_exec_next he
  have hsat : SaturatesAt s ↔ (ruleOf i.mnemonic).setsOv (exactResult i s acc) = true := by
    constructor
    · rintro ⟨i', acc', hi', ha', hov⟩
      obtain rfl : i' = i := Except.ok.inj (hi'.symm.trans hi)
      obtain rfl : acc' = acc := Except.ok.inj (ha'.symm.trans ha)
      exact hov
    · exact fun hov => ⟨i, acc, hi, ha, hov⟩
  rw [exec_next_ov he ha, Bool.or_eq_true, hsat]

/-- Rule R19: OV after a run is 1 exactly if it was 1 before or some state of the run saturated. -/
theorem run_ov_iff {k : Nat} {s t : State} (h : Sys2Proof.core.run k s = .next t) :
    t.ov = true ↔ s.ov = true ∨
      ∃ j u, j < k ∧ Sys2Proof.core.run j s = .next u ∧ SaturatesAt u := by
  induction k generalizing s with
  | zero =>
    obtain rfl := Host.Outcome.next.inj h
    simp
  | succ k ih =>
    obtain ⟨s', hs, hk⟩ := exists_step_of_run_succ h
    rw [ih hk, step_ov_iff hs, exists_passed_succ_iff hs, or_assoc]

/-! ### The two levels of the program text -/

@[simp] theorem State.atLevel_isFinal (s : State) (b : Bool) : (s.atLevel b).isFinal = s.isFinal := rfl

@[simp] theorem State.atLevel_pcInText (s : State) (b : Bool) : (s.atLevel b).pcInText = s.pcInText := rfl

theorem State.atLevel_of_binaryLevel {s : State} {b : Bool} (h : s.cfg.binaryLevel = b) :
    s.atLevel b = s := by
  subst h; rfl

/-- Where listing and memory hold one program, each level fetches the same instruction at every place of the text. -/
theorem exists_fetch_atLevel {s : State} (hs : s.inv = true) (hp : s.SameProgram)
    (hin : s.pcInText = true) : ∃ i, ∀ b, (s.atLevel b).fetch = .ok i := by
  obtain ⟨hwf, -, -, -, -⟩ := (State.inv_iff s).mp hs
  obtain ⟨hbase, -, -, -, -⟩ := (Config.wellFormed_iff _ _).mp hwf
  obtain ⟨hal, hge, hbelow⟩ := (State.pcInText_iff s).mp hin
  obtain ⟨hlen, htext⟩ := hp
  have hk : (s.pcVal - s.cfg.textBase) / 4 < s.listing.length := by omega
  have hpc : s.cfg.textBase + 4 * ((s.pcVal - s.cfg.textBase) / 4) = s.pcVal := by omega
  obtain ⟨i, hi, hw⟩ := htext _ hk
  rw [hpc] at hw
  refine ⟨i, fun b => ?_⟩
  cases b with
  | true => exact State.fetch_of_readWord_encode hin rfl hw
  | false => exact State.fetch_of_listing hin rfl (List.getElem?_eq_getElem hk) hi

/-- A step at one level answers what the step at the other answers, the level apart. -/
theorem step_atLevel {s : State} (hs : s.inv = true) (hp : s.SameProgram) (a b : Bool) :
    step (s.atLevel a) = onNext (fun t => t.atLevel a) (step (s.atLevel b)) := by
  by_cases hin : s.pcInText = true
  · obtain ⟨i, hi⟩ := exists_fetch_atLevel hs hp hin
    rw [step_of_fetch (hi a), step_of_fetch (hi b), ← exec_atLevel, State.atLevel_atLevel]
  · simp only [step, State.fetch, State.atLevel_isFinal, State.atLevel_pcInText, hin,
      Bool.false_eq_true, if_false]
    split <;> rfl

/-- A step leaves the program text, at both levels, and where it lies as they were. -/
theorem step_keeps_sameProgram {s t : State} (hp : s.SameProgram) (h : step s = .next t) :
    t.SameProgram := by
  obtain ⟨hcfg, hmem, hlist, -, -⟩ := step_next_frame h
  unfold State.SameProgram at hp ⊢
  simpa only [hcfg, hmem, hlist] using hp

/-- Runs of every length at the two levels have the same outcome, the level apart. -/
theorem run_atLevel {s : State} (hs : s.inv = true) (hp : s.SameProgram) (a b : Bool) (k : Nat) :
    Sys2Proof.core.run k (s.atLevel a) =
      onNext (fun t => t.atLevel a) (Sys2Proof.core.run k (s.atLevel b)) := by
  induction k generalizing s with
  | zero => rfl
  | succ k ih =>
    have ha := step_atLevel hs hp a b
    rcases step_cases (s.atLevel b) with ⟨t, hb⟩ | ⟨r, hb⟩ <;> rw [hb] at ha
    · have ht : t.atLevel b = t := by
        obtain ⟨hcfg, -⟩ := step_next_frame hb
        exact State.atLevel_of_binaryLevel (by rw [hcfg, State.atLevel_binaryLevel])
      have hinv : t.inv = true := step_keeps_inv (s := s.atLevel b) hs hb
      have hprog : t.SameProgram := step_keeps_sameProgram (s := s.atLevel b) hp hb
      rw [run_succ_next k ha, run_succ_next k hb, ih hinv hprog, ht]
    · rw [run_succ_refused k ha, run_succ_refused k hb]
      rfl

end Sys2Proof.Machine
end

section
/-! SUPPORT. The statements about registers, single instructions, steps and runs, settled. -/

namespace Sys2Proof.Proofs

open Sys2Proof.Machine Sys2Proof.Statements

/-- Settles O16, by induction on the number of steps: a step sets OV exactly where its instruction saturates. -/
theorem ovAfterRunTellsWhetherAnyInstructionSaturated :
    Obligations.OvAfterRunTellsWhetherAnyInstructionSaturated := by
  intro k s t h
  rw [run_ov_iff h]
  refine or_congr_right ⟨?_, ?_⟩
  · rintro ⟨j, u, hj, hu, i, acc, hsat⟩
    exact ⟨j, u, i, acc, hj, hu, hsat⟩
  · rintro ⟨j, u, i, acc, hj, hu, hsat⟩
    exact ⟨j, u, hj, hu, i, acc, hsat⟩

/-- Settles O36. -/
theorem everyStepKeepsTheStateWellPlaced : Obligations.EveryStepKeepsTheStateWellPlaced :=
  fun _ _ hs h => step_keeps_inv hs h

/-- Settles O41: the two levels fetch the same instruction, and no execution reads the level. -/
theorem textualAndBinaryLevelsRunAlike : Obligations.TextualAndBinaryLevelsRunAlike :=
  fun _ k hs hp => run_atLevel hs hp true false k

/-- Settles O10. -/
theorem rv32PairZeroLiteralUsesRegistersOneAndZero :
    Obligations.Rv32PairZeroLiteralUsesRegistersOneAndZero := by
  intro m rd rs1 rs2 s h v z hs hd hp ho hz hv
  subst hv
  have hd0 := (pairNum_eq_zero_iff rd).mpr hd
  refine ⟨_, exec_make_rv32 hs hd0 ho hz (pairRead_literal h hp) (pairWrite_literal h hp _), ?_,
    fun n => ?_⟩
  · rw [Hart.advance_pc, Hart.write_pc, Hart.write_pc, toNat_toBits_add_four]
  · rw [Hart.read_advance]
    by_cases h1 : n = 1
    · subst h1
      rw [if_pos rfl, Hart.read_write_of_ne _ (by decide), Hart.read_write_self _ (by decide)]
      rfl
    · rw [if_neg h1]
      by_cases h0 : n = 0
      · subst h0
        rw [if_pos rfl, Hart.read_write_zero]
        rfl
      · rw [if_neg h0, Hart.read_write_of_ne _ h0, Hart.read_write_of_ne _ h1]

/-- Settles O11. -/
theorem rv32PairZeroDiscardKeepsOnlyOv : Obligations.Rv32PairZeroDiscardKeepsOnlyOv := by
  intro m rd rs1 rs2 s h hs hd hp ho
  have hd0 := (pairNum_eq_zero_iff rd).mpr hd
  rw [exec_make_rv32 hs hd0 ho rfl (pairRead_zeroDiscard h hp) (pairWrite_zeroDiscard h hp _),
    Hart.advance_eq]

/-- Settles O13. -/
theorem execChangesOnlyAccumulatorOvAndPc : Obligations.ExecChangesOnlyAccumulatorOvAndPc := by
  intro i s t he
  obtain ⟨hcfg, hmem, hlist, hx, hpc⟩ := exec_next_frame he
  obtain ⟨acc, ha⟩ := exists_accRead_of_exec_next he
  refine ⟨fun a => by rw [hmem], hlist, hcfg, hx, fun n hn => exec_next_regVal he hn, fun hm => ?_, hpc⟩
  rw [exec_next_ov he ha, setsOv_of_not_isSaturating hm, Bool.or_false]

/-- Settles O14: both accumulator accesses and the product term depend on the named registers alone; on RV32 `rd` enters
only through its pair number. -/
theorem execReadsOnlyAccumulatorAndMultiplicands :
    Obligations.ExecReadsOnlyAccumulatorAndMultiplicands := by
  refine ⟨fun i s s' t he hc hx h1 h2 hacc => ?_, fun m rd rd' rs1 rs2 s hx ho hd => ?_⟩
  · obtain ⟨t', he', hin, hov⟩ := exec_congr he hc hx h1 h2 hacc
    exact ⟨t', he', hin, fun n hout => exec_next_regVal he' (by rwa [hx]), hov⟩
  · obtain ⟨h, hs⟩ := State.exists_rv32_of_xlen hx
    exact exec_make_eq_of_pairNum_eq hs ho
      (BitVec.eq_of_toNat_eq (by rw [pairNum_toNat, pairNum_toNat, hd]))

/-- Settles O15. -/
theorem ovIsSetOnlyBySaturationAndNeverRead : Obligations.OvIsSetOnlyBySaturationAndNeverRead := by
  refine ⟨fun i s t acc he ha => exec_next_ov he ha, fun i s t hm he => ?_, fun i s b => ?_⟩
  · obtain ⟨acc, ha⟩ := exists_accRead_of_exec_next he
    rw [exec_next_ov he ha, setsOv_of_not_isSaturating hm, Bool.or_false]
  · obtain ⟨c, hc⟩ := exec_withOv i s b
    rw [hc]
    refine ⟨fun r => ?_, fun t he => ⟨c, by rw [he]; rfl⟩⟩
    cases exec i s <;> simp [onNext]

/-- Settles O26. -/
theorem registerZeroIsConstantWhenHardwired : Obligations.RegisterZeroIsConstantWhenHardwired := by
  intro w c h n v
  refine ⟨fun hx => ?_, fun hx => ?_, fun hn => Hart.read_write_self h hn v,
    fun k hk => Hart.read_write_of_ne h hk v⟩
  · have hz : isZeroReg c 0 = true := (isZeroReg_zero c).trans hx
    exact ⟨Hart.read_zeroReg hz, if_pos hz⟩
  · rw [Hart.read_write_zero, hx, if_neg Bool.false_ne_true]

/-- Settles O33. -/
theorem stepRunsTheListedInstruction : Obligations.StepRunsTheListedInstruction :=
  fun s _ _ hb hal hge hbelow hl hi =>
    step_of_fetch (State.fetch_of_listing ((State.pcInText_iff s).mpr ⟨hal, hge, hbelow⟩) hb hl hi)

end Sys2Proof.Proofs
end

section
/-! SUPPORT. The textual level (rules R26, R50, R51): which record reads as which instruction. -/

namespace Sys2Proof

/-- Rule R50: the source's spelling of a name stands for it. -/
@[simp] theorem Mnemonic.ofSpelling_name (m : Mnemonic) : Mnemonic.ofSpelling m.name = some m := by
  cases m <;> decide

/-- Rules R50, R51: a spelling that stands for a name is that name in capitals or in lower case. -/
theorem Mnemonic.eq_name_or_lowerName_of_ofSpelling {t : String} {m : Mnemonic}
    (h : Mnemonic.ofSpelling t = some m) : t = m.name ∨ t = m.lowerName := by
  have hm := List.find?_some h
  simpa only [Bool.or_eq_true, beq_iff_eq] using hm

theorem AsmLine.wellFormed_iff (l : AsmLine) : l.wellFormed = true ↔
    (∃ m, Mnemonic.ofSpelling l.mnemonic = some m) ∧ l.rd < 32 ∧ l.rs1 < 32 ∧ l.rs2 < 32 := by
  simp only [AsmLine.wellFormed, Bool.and_eq_true, decide_eq_true_eq, Option.isSome_iff_exists, and_assoc]

/-- A record with a spelling of the eight and register numbers reads as that instruction of those registers. -/
theorem AsmLine.toInstr_of_ofSpelling {l : AsmLine} {m : Mnemonic}
    (hm : Mnemonic.ofSpelling l.mnemonic = some m) (hd : l.rd < 32) (h1 : l.rs1 < 32) (h2 : l.rs2 < 32) :
    l.toInstr = .ok (Instr.make m (BitVec.ofNat 5 l.rd) (BitVec.ofNat 5 l.rs1) (BitVec.ofNat 5 l.rs2)) := by
  simp only [AsmLine.toInstr, hm, hd, h1, h2, and_self, if_true]

/-- A record reads as an instruction exactly when it spells its name and holds its operands. -/
theorem AsmLine.toInstr_eq_ok_iff {l : AsmLine} {i : Instr} : l.toInstr = .ok i ↔
    Mnemonic.ofSpelling l.mnemonic = some i.mnemonic ∧
      l.rd = i.rd.toNat ∧ l.rs1 = i.rs1.toNat ∧ l.rs2 = i.rs2.toNat := by
  constructor
  · intro h
    unfold AsmLine.toInstr at h
    split at h
    · rename_i m hm
      split at h
      · rename_i hlt
        obtain ⟨hd, h1, h2⟩ := hlt
        obtain rfl := Except.ok.inj h
        simp [hm, Nat.mod_eq_of_lt, hd, h1, h2]
      · cases h
    · cases h
  · rintro ⟨hm, hd, h1, h2⟩
    rw [toInstr_of_ofSpelling hm (hd ▸ i.rd.isLt) (h1 ▸ i.rs1.isLt) (h2 ▸ i.rs2.isLt), hd, h1, h2]
    simp only [BitVec.ofNat_toNat, BitVec.setWidth_eq, Instr.make_eta]

/-- Rule R50: an instruction's record reads back as it. -/
theorem Instr.toInstr_toAsmLine (i : Instr) : i.toAsmLine.toInstr = .ok i :=
  AsmLine.toInstr_eq_ok_iff.mpr ⟨Mnemonic.ofSpelling_name i.mnemonic, rfl, rfl, rfl⟩

theorem AsmLine.wellFormed_iff_exists_toInstr (l : AsmLine) :
    l.wellFormed = true ↔ ∃ i, l.toInstr = .ok i := by
  rw [AsmLine.wellFormed_iff]
  constructor
  · rintro ⟨⟨m, hm⟩, hd, h1, h2⟩
    exact ⟨_, toInstr_of_ofSpelling hm hd h1 h2⟩
  · rintro ⟨i, hi⟩
    obtain ⟨hm, hd, h1, h2⟩ := toInstr_eq_ok_iff.mp hi
    exact ⟨⟨_, hm⟩, hd ▸ i.rd.isLt, h1 ▸ i.rs1.isLt, h2 ▸ i.rs2.isLt⟩

end Sys2Proof
end

section
/-! SUPPORT. A placed word, the fetch over a present text, and what ends a run. -/

namespace Sys2Proof.Machine

/-! ### A placed word -/

@[simp] theorem State.withFetchWord_mem (s : State) (w : Word32) :
    (s.withFetchWord 32 w.toNat).mem = Memory.writeWord s.mem s.pcVal w := by
  simp only [State.withFetchWord, Nat.mod_eq_of_lt w.isLt, BitVec.ofNat_toNat, BitVec.setWidth_eq]

/-- The text of a placed word holds the four bytes at `pc`. -/
theorem State.withFetchWord_pcInText {s : State} (hal : s.pcVal % 4 = 0) (nbits v : Nat) :
    (s.withFetchWord nbits v).pcInText = true := by
  rw [State.pcInText_iff, State.withFetchWord_pcVal]
  exact ⟨hal, Nat.min_le_right _ _, lt_of_lt_of_le (by omega) (Nat.le_max_right _ _)⟩

/-- The fetch at a placed instruction's word is that instruction (rules R27, R48). -/
theorem State.withFetchWord_fetch {s : State} (hal : s.pcVal % 4 = 0) (i : Instr) :
    (s.withFetchWord 32 (encode i).toNat).fetch = .ok i := by
  refine State.fetch_of_readWord_encode (State.withFetchWord_pcInText hal _ _) rfl ?_
  rw [State.withFetchWord_mem, State.withFetchWord_pcVal, Memory.readWord_writeWord]

/-! ### The fetch over a present text -/

theorem Memory.exists_readWord {m : Memory} {a : Nat}
    (h : ∀ j, j < 4 → (Memory.readByte m (a + j)).isSome = true) : ∃ w, Memory.readWord m a = some w := by
  obtain ⟨b0, h0⟩ := Option.isSome_iff_exists.mp (h 0 (by omega))
  obtain ⟨b1, h1⟩ := Option.isSome_iff_exists.mp (h 1 (by omega))
  obtain ⟨b2, h2⟩ := Option.isSome_iff_exists.mp (h 2 (by omega))
  obtain ⟨b3, h3⟩ := Option.isSome_iff_exists.mp (h 3 (by omega))
  rw [Nat.add_zero] at h0
  exact ⟨wordOfBytes b0 b1 b2 b3, by simp only [Memory.readWord, h0, h1, h2, h3]⟩

/-- At the binary level a present text holds a word at every place of the text: `pc` and `text_end` are multiples of 4,
so all four bytes lie below `text_end`. -/
theorem State.exists_readWord_of_textPresent {s : State} (hs : s.inv = true) (hp : s.TextPresent)
    (hb : s.cfg.binaryLevel = true) (hin : s.pcInText = true) :
    ∃ w, Memory.readWord s.mem s.pcVal = some w := by
  obtain ⟨hwf, -, -, -, -⟩ := (State.inv_iff s).mp hs
  obtain ⟨-, hend, -, -, -⟩ := (Config.wellFormed_iff _ _).mp hwf
  obtain ⟨hal, hge, hbelow⟩ := (State.pcInText_iff s).mp hin
  rw [State.TextPresent, if_pos hb] at hp
  refine Memory.exists_readWord fun j hj => ?_
  have hbyte := hp (s.pcVal - s.cfg.textBase + j) (by omega)
  rwa [show s.cfg.textBase + (s.pcVal - s.cfg.textBase + j) = s.pcVal + j by omega] at hbyte

/-- At the textual level a present text holds a record at every place of the text. -/
theorem State.exists_listing_of_textPresent {s : State} (hp : s.TextPresent)
    (hb : s.cfg.binaryLevel = false) (hin : s.pcInText = true) :
    ∃ l, s.listing[(s.pcVal - s.cfg.textBase) / 4]? = some l := by
  obtain ⟨hal, hge, hbelow⟩ := (State.pcInText_iff s).mp hin
  rw [State.TextPresent, if_neg (by simp [hb])] at hp
  exact ⟨_, List.getElem?_eq_getElem (by omega)⟩

theorem refuseDecode_ne_badFetch (d : Except DecodeReject Instr) : refuseDecode d ≠ .error .badFetch := by
  cases d <;> simp [refuseDecode]

/-- The fetch from a well-placed state whose text is present is no bad fetch, unless the run is final (rule R29). -/
theorem State.fetch_ne_badFetch {s : State} (hs : s.inv = true) (hp : s.TextPresent)
    (hf : s.isFinal = false) : s.fetch ≠ .error .badFetch := by
  have hin : s.pcInText = true := by
    obtain ⟨-, -, hal, hge, hle⟩ := (State.inv_iff s).mp hs
    have hne : s.pcVal ≠ s.cfg.textEnd := of_decide_eq_false hf
    exact (State.pcInText_iff s).mpr ⟨hal, hge, by omega⟩
  cases hb : s.cfg.binaryLevel with
  | true =>
    obtain ⟨w, hw⟩ := State.exists_readWord_of_textPresent hs hp hb hin
    simpa [State.fetch, hin, hb, State.fetchBinary, hw] using refuseDecode_ne_badFetch _
  | false =>
    obtain ⟨l, hl⟩ := State.exists_listing_of_textPresent hp hb hin
    simpa [State.fetch, hin, hb, State.fetchTextual, hl] using refuseDecode_ne_badFetch _

/-! ### What ends a step or a run -/

/-- An execution is refused for its register pair alone (rules R13, R14, R59). -/
theorem exec_refused_cases {i : Instr} {s : State} {r : Refusal} (h : exec i s = .refused r) :
    r = .oddRd ∨ r = .pair0 := by
  rw [exec_eq_accumulate] at h
  cases hs : s.core with
  | rv64 g => rw [accumulate_rv64 hs] at h; cases h
  | rv32 g =>
    rcases accumulate_rv32 hs i.rd (narrowing i s) with ⟨-, e⟩ | ⟨-, -, -, e⟩ | ⟨-, acc, g', -, -, e⟩ <;>
      rw [e] at h
    · exact .inl (Host.Outcome.refused.inj h).symm
    · exact .inr (Host.Outcome.refused.inj h).symm
    · cases h

/-- A step is refused at the end of the text, by the fetch, or for a register pair. -/
theorem step_refused_cases {s : State} {r : Refusal} (h : step s = .refused r) :
    (s.isFinal = true ∧ r = .runFinal) ∨ (s.isFinal = false ∧ s.fetch = .error r) ∨
      r = .oddRd ∨ r = .pair0 := by
  unfold step at h
  split at h
  · exact .inl ⟨‹_›, (Host.Outcome.refused.inj h).symm⟩
  · rename_i hf
    split at h
    · exact .inr (.inr (exec_refused_cases h))
    · rename_i r' hr
      obtain rfl := Host.Outcome.refused.inj h
      exact .inr (.inl ⟨by simpa using hf, hr⟩)

theorem step_ne_badFetch {s : State} (hs : s.inv = true) (hp : s.TextPresent) :
    step s ≠ .refused .badFetch := by
  intro h
  rcases step_refused_cases h with ⟨-, hr⟩ | ⟨hf, hr⟩ | hr | hr
  · cases hr
  · exact State.fetch_ne_badFetch hs hp hf hr
  · cases hr
  · cases hr

/-- A step leaves the program text and where it lies as they were. -/
theorem step_keeps_textPresent {s t : State} (hp : s.TextPresent) (h : step s = .next t) :
    t.TextPresent := by
  obtain ⟨hcfg, hmem, hlist, -, -⟩ := step_next_frame h
  unfold State.TextPresent at hp ⊢
  simpa only [hcfg, hmem, hlist] using hp

/-- What every step keeps, a run keeps. -/
theorem run_keeps {P : State → Prop} (hstep : ∀ {u v}, P u → step u = .next v → P v) {k : Nat}
    {s t : State} (hs : P s) (h : Sys2Proof.core.run k s = .next t) : P t := by
  induction k generalizing s with
  | zero => exact Host.Outcome.next.inj h ▸ hs
  | succ k ih =>
    obtain ⟨s', hs', hk⟩ := exists_step_of_run_succ h
    exact ih (hstep hs hs') hk

/-- A run that is refused is refused at a step from a state that it passes through. -/
theorem exists_step_refused_of_run_refused {k : Nat} {s : State} {r : Refusal}
    (h : Sys2Proof.core.run k s = .refused r) :
    ∃ j u, j < k ∧ Sys2Proof.core.run j s = .next u ∧ step u = .refused r := by
  induction k generalizing s with
  | zero => cases h
  | succ k ih =>
    rcases step_cases s with ⟨s', hs⟩ | ⟨r', hs⟩
    · obtain ⟨j, u, hj, hu, hr⟩ := ih ((run_succ_next k hs).symm.trans h)
      exact ⟨j + 1, u, by omega, (run_succ_next j hs).trans hu, hr⟩
    · obtain rfl : r' = r := Host.Outcome.refused.inj ((run_succ_refused k hs).symm.trans h)
      exact ⟨0, s, by omega, rfl, hs⟩

/-- A run faults on no path (rule R95). -/
theorem run_ne_fault (k : Nat) (s : State) (r : Fault) : Sys2Proof.core.run k s ≠ .fault r := by
  induction k generalizing s with
  | zero => exact fun h => nomatch h
  | succ k ih =>
    rcases step_cases s with ⟨s', hs⟩ | ⟨r', hs⟩
    · rw [run_succ_next k hs]
      exact ih s'
    · rw [run_succ_refused k hs]
      exact fun h => nomatch h

end Sys2Proof.Machine
end

section
/-! SUPPORT. The statements about the program text, its records and its fetch, settled. -/

namespace Sys2Proof.Proofs

open Sys2Proof.Machine

/-- Settles O39: a run is refused at some step, and every state that it passes through is well placed with its text
present. -/
theorem runsOverPresentTextNeverFetchBadly : Obligations.RunsOverPresentTextNeverFetchBadly := by
  intro s k hs hp
  refine ⟨fun h => ?_, run_ne_fault k s⟩
  obtain ⟨j, u, -, hu, hr⟩ := exists_step_refused_of_run_refused h
  exact step_ne_badFetch (run_keeps step_keeps_inv hs hu) (run_keeps step_keeps_textPresent hp hu) hr

/-- Settles O31. -/
theorem textualRecordsReadBack : Obligations.TextualRecordsReadBack := by
  refine ⟨fun i => ?_, AsmLine.wellFormed_iff_exists_toInstr, fun l i hi => ?_⟩
  · have hread := i.toInstr_toAsmLine
    exact ⟨hread, (AsmLine.wellFormed_iff_exists_toInstr _).mpr ⟨i, hread⟩⟩
  · obtain ⟨hm, hd, h1, h2⟩ := AsmLine.toInstr_eq_ok_iff.mp hi
    exact ⟨hd, h1, h2, Mnemonic.eq_name_or_lowerName_of_ofSpelling hm⟩

/-- Settles O34. -/
theorem placedWordIsWhatTheNextStepRuns : Obligations.PlacedWordIsWhatTheNextStepRuns := by
  rintro s p i hal rfl
  refine ⟨step_of_fetch (State.withFetchWord_fetch hal i), rfl, rfl, rfl, rfl, fun a ha => ?_, fun hm => ?_⟩
  · rw [State.withFetchWord_mem, Memory.readByte_writeWord_other _ _ ha]
  · rw [State.withFetchWord_mem]
    exact Memory.writeWord_wf hm _ _

end Sys2Proof.Proofs
end

section
/-! SUPPORT. What the decoder answers on any word, any bytes and any table word (rules R27, R44 to R48). -/

namespace Sys2Proof

/-! ### The decoder on any word -/

/-- A five-bit field of a word, put back in its place, is the word under that field's mask. -/
theorem field_putBack (w : Word32) (k : Nat) :
    (w.extractLsb' k 5).setWidth 32 <<< k = w &&& (BitVec.allOnes 5).setWidth 32 <<< k := by
  refine BitVec.eq_of_getLsbD_eq fun j hj => ?_
  rw [BitVec.getLsbD_and, getLsbD_field _ _ _ hj, getLsbD_field _ _ _ hj, BitVec.getLsbD_extractLsb',
    BitVec.getLsbD_allOnes]
  by_cases hk : k ≤ j
  · rw [Nat.add_sub_cancel' hk]
    ac_rfl
  · simp [hk]

/-- Rules R45, R46: the row mask and the three operand fields together hold every bit of a word. -/
theorem row_or_fields (w : Word32) :
    w &&& rowMask ||| (rs2Field w).setWidth 32 <<< 20 ||| (rs1Field w).setWidth 32 <<< 15 |||
      (rdField w).setWidth 32 <<< 7 = w := by
  have hcover : rowMask ||| (BitVec.allOnes 5).setWidth 32 <<< 20 |||
      (BitVec.allOnes 5).setWidth 32 <<< 15 ||| (BitVec.allOnes 5).setWidth 32 <<< 7 =
      BitVec.allOnes 32 := by decide
  simp only [rs2Field, rs1Field, rdField, field_putBack, ← BitVec.and_or_distrib_left, hcover,
    BitVec.and_allOnes]

/-- Rule R48: a word decodes to an instruction exactly when it is that instruction's word. -/
theorem decodeWord_eq_ok_iff {w : Word32} {i : Instr} : decodeWord w = .ok i ↔ encode i = w := by
  constructor
  · intro h
    unfold decodeWord at h
    split at h
    · rename_i m hfind
      obtain rfl := Except.ok.inj h
      have hrow : w &&& rowMask = m.matchWord := by simpa using List.find?_some hfind
      rw [encode, Instr.make_mnemonic, Instr.make_rs2, Instr.make_rs1, Instr.make_rd, ← hrow, row_or_fields]
    · cases h
  · rintro rfl
    exact decodeWord_encode i

/-- Rule R47: a word is rejected exactly when its bits under the row mask are no row's match word. -/
theorem decodeWord_eq_notInScope_iff (w : Word32) : decodeWord w = .error .notInScope ↔
    ∀ v ∈ Mnemonic.all.map Mnemonic.matchWord, w &&& rowMask ≠ v := by
  have hnone : (Mnemonic.all.find? fun m => w &&& rowMask == m.matchWord) = none ↔
      ∀ v ∈ Mnemonic.all.map Mnemonic.matchWord, w &&& rowMask ≠ v := by
    simp only [List.find?_eq_none, beq_iff_eq, List.forall_mem_map, ne_eq]
  rw [← hnone, decodeWord]
  split
  · rename_i m hfind
    simp [hfind]
  · rename_i hfind
    simp [hfind]

/-! ### The decoder on bytes and table words -/

/-- Rule R27: a word's four bytes decode as the word does, and whatever follows is given back. -/
theorem decodeBytes_bytesOfWord {w : Word32} {i : Instr} (h : decodeWord w = .ok i) (rest : List Byte) :
    decodeBytes (bytesOfWord w ++ rest) = .ok (i, rest) := by
  simp only [bytesOfWord, List.cons_append, List.nil_append, decodeBytes, Machine.wordOfBytes_byteOfWord, h]

/-- A word as a table word of 32 bits decodes as the word does. -/
theorem decodeTableWord_toNat {w : Word32} {i : Instr} (h : decodeWord w = .ok i) :
    decodeTableWord 32 w.toNat = some i := by
  have hw : BitVec.ofNat 32 (w.toNat % 2 ^ 32) = w := by
    rw [Nat.mod_eq_of_lt w.isLt, BitVec.ofNat_toNat, BitVec.setWidth_eq]
  have hb : decodeBytes (bytesOfWord w) = .ok (i, []) := by
    simpa only [List.append_nil] using decodeBytes_bytesOfWord h []
  simp only [decodeTableWord, hw, hb, le_refl, if_true]

end Sys2Proof
end

section
/-! SUPPORT. The statements about the encoding, settled. -/

namespace Sys2Proof.Proofs

/-- Settles O27: each direction on words is the decoder's rule, and bytes and table words decode as their word does. -/
theorem decodeAndEncodeAgree : Obligations.DecodeAndEncodeAgree :=
  ⟨decodeWord_encode, fun _ _ => decodeWord_eq_ok_iff.mp,
    fun i => decodeBytes_bytesOfWord (decodeWord_encode i),
    fun i => decodeTableWord_toNat (decodeWord_encode i)⟩

/-- Settles O29: the printed words are the eight match words in another order. -/
theorem decoderRejectsExactlyTheOtherWords : Obligations.DecoderRejectsExactlyTheOtherWords := by
  intro w
  have hprinted : (Mnemonic.all.map Mnemonic.matchWord).Perm
      [0x84001077, 0x86001077, 0x94001077, 0x96001077, 0xA4001077, 0xA6001077, 0xB4001077, 0xB6001077] := by
    decide
  simp only [decodeWord_eq_notInScope_iff, hprinted.mem_iff, rowMask]

/-- Settles O28: the printed words are rule R44's match words, one by one. -/
theorem encodeIsTheTablesWord : Obligations.EncodeIsTheTablesWord := by
  rintro rd rs1 rs2 f rfl
  have hv := matchWord_values
  simp only [Mnemonic.all, List.map_cons, List.cons.injEq] at hv
  simp only [encode, Instr.mnemonic, Instr.rd, Instr.rs1, Instr.rs2, hv, BitVec.or_assoc, and_self]

/-- Settles O30, by running the decoder on each word. -/
theorem sampleWordsDecodeAsPrinted : Obligations.SampleWordsDecodeAsPrinted :=
  ⟨rfl, rfl, rfl, rfl, rfl, rfl, rfl, rfl, rfl, rfl, rfl⟩

end Sys2Proof.Proofs
end

section
/-! SUPPORT. The pairs d = 1 to 15 of RV32 and the registers of RV64: what one instruction leaves on every form the
source gives it (rules R14, R15, R60, R62). -/

namespace Sys2Proof.Machine

open Sys2Proof.Statements

/-! ### The two registers of a pair -/

theorem eq_oddReg_iff (d : BitVec 4) (n : RegNum) : n = oddReg d ↔ n.toNat = 2 * d.toNat + 1 := by
  rw [← BitVec.toNat_inj, oddReg_toNat]

theorem eq_evenReg_iff (d : BitVec 4) (n : RegNum) : n = evenReg d ↔ n.toNat = 2 * d.toNat := by
  rw [← BitVec.toNat_inj, evenReg_toNat]

theorem ofNat_eq_oddReg (d : BitVec 4) : BitVec.ofNat 5 (2 * d.toNat + 1) = oddReg d := by
  rw [← oddReg_toNat, BitVec.ofNat_toNat, BitVec.setWidth_eq]

theorem ofNat_eq_evenReg (d : BitVec 4) : BitVec.ofNat 5 (2 * d.toNat) = evenReg d := by
  rw [← evenReg_toNat, BitVec.ofNat_toNat, BitVec.setWidth_eq]

theorem eq_iff_elements {v w : DWord} :
    v = w ↔ lowElement v = lowElement w ∧ highElement v = highElement w := by
  refine ⟨fun e => by rw [e]; exact ⟨rfl, rfl⟩, fun ⟨hlow, hhigh⟩ => ?_⟩
  rw [← highElement_append_lowElement v, hlow, hhigh, highElement_append_lowElement]

/-- The registers after both halves of a value are written to pair d (rule R14). -/
def Hart.writePair (c : Config) (h : Hart 32) (d : BitVec 4) (v : DWord) : Hart 32 :=
  (h.write c (oddReg d) (highElement v)).write c (evenReg d) (lowElement v)

section
variable {c : Config} (h : Hart 32) {d : BitVec 4}

@[simp] theorem Hart.writePair_pc (d : BitVec 4) (v : DWord) : (h.writePair c d v).pc = h.pc := by
  simp only [Hart.writePair, Hart.write_pc]

theorem pairRead_of_ne_zero (hd : d ≠ 0) :
    pairRead c h d = .ok (h.read c (oddReg d) ++ h.read c (evenReg d)) :=
  if_neg hd

theorem pairWrite_of_ne_zero (hd : d ≠ 0) (v : DWord) : pairWrite c h d v = .ok (h.writePair c d v) :=
  if_neg hd

/-- A read after a pair write: the high half, the low half, or the register as before. -/
theorem Hart.read_writePair (hd : d ≠ 0) (v : DWord) (n : RegNum) :
    (h.writePair c d v).read c n =
      if n = oddReg d then highElement v
      else if n = evenReg d then lowElement v else h.read c n := by
  unfold Hart.writePair
  by_cases ho : n = oddReg d
  · subst ho
    rw [if_pos rfl, Hart.read_write_of_ne _ (oddReg_ne_evenReg d),
      Hart.read_write_self _ (oddReg_ne_zero d)]
  · rw [if_neg ho]
    by_cases he : n = evenReg d
    · subst he
      rw [if_pos rfl, Hart.read_write_self _ (evenReg_ne_zero hd)]
    · rw [if_neg he, Hart.read_write_of_ne _ he, Hart.read_write_of_ne _ ho]

/-- A pair write loses no bit of the value, and the advance hides none. -/
theorem Hart.advance_writePair_inj (hd : d ≠ 0) {v w : DWord} :
    (h.writePair c d v).advance = (h.writePair c d w).advance ↔ v = w := by
  refine ⟨fun e => ?_, fun e => by rw [e]⟩
  have hhigh := congrArg (fun g => Hart.read c g (oddReg d)) e
  have hlow := congrArg (fun g => Hart.read c g (evenReg d)) e
  simp only [Hart.read_advance, Hart.read_writePair h hd, if_true, (oddReg_ne_evenReg d).symm,
    if_false] at hhigh hlow
  exact eq_iff_elements.mpr ⟨hlow, hhigh⟩

end

/-! ### One execution, whole -/

/-- An RV32 execution on a pair d from 1 to 15 (rules R13, R14, R62). -/
theorem exec_make_writePair {m : Mnemonic} {rd rs1 rs2 : RegNum} {s : State} {h : Hart 32} {acc : DWord}
    {z : Int} (hs : s.core = .rv32 h) (hd : pairNum rd ≠ 0)
    (ho : rd.toNat % 2 = 1 → s.cfg.oddRd = .ignoreBit0)
    (hacc : acc = h.read s.cfg (oddReg (pairNum rd)) ++ h.read s.cfg (evenReg (pairNum rd)))
    (hz : z = (ruleOf m).rv32 acc (h.read s.cfg rs1) (h.read s.cfg rs2)) :
    exec (Instr.make m rd rs1 rs2) s = .next { s with
      core := .rv32 (h.writePair s.cfg (pairNum rd) (BitVec.ofInt 64 ((ruleOf m).narrow z))).advance
      ov := s.ov || (ruleOf m).setsOv z } :=
  exec_make_rv32 hs rfl ho hz (hacc ▸ pairRead_of_ne_zero h hd) (pairWrite_of_ne_zero h hd _)

/-- An RV64 execution, which completes on every form (rules R15, R60, R62). -/
theorem exec_make_rv64 {m : Mnemonic} {rd rs1 rs2 : RegNum} {s : State} {h : Hart 64} {z : Int}
    (hs : s.core = .rv64 h)
    (hz : z = (ruleOf m).rv64 (h.read s.cfg rd) (h.read s.cfg rs1) (h.read s.cfg rs2)) :
    exec (Instr.make m rd rs1 rs2) s = .next { s with
      core := .rv64 (h.write s.cfg rd (BitVec.ofInt 64 ((ruleOf m).narrow z))).advance
      ov := s.ov || (ruleOf m).setsOv z } := by
  have hexact : exactResult (Instr.make m rd rs1 rs2) s (h.read s.cfg rd) = z := by
    simp only [exactResult, hs, Instr.make_mnemonic, Instr.make_rs1, Instr.make_rs2, hz]
  rw [exec_eq_accumulate, accumulate_rv64 hs, Instr.make_rd, narrowing_eq_rule, hexact,
    Instr.make_mnemonic]

/-- A write of a register that is no constant, the advance included, as its reads show it. -/
theorem Hart.read_advance_write {w : Nat} {c : Config} (h : Hart w) {rd : RegNum}
    (hrd : isZeroReg c rd = false) (v : BitVec w) (n : RegNum) :
    (h.write c rd v).advance.read c n = if n = rd then v else h.read c n := by
  rw [Hart.read_advance, Hart.read_write]
  simp only [hrd, and_true]

theorem isZeroReg_eq_false_iff (c : Config) (n : RegNum) :
    isZeroReg c n = false ↔ ¬ (c.x0Hardwired = true ∧ n = 0) := by
  rw [← Bool.not_eq_true, isZeroReg, Bool.and_eq_true, beq_iff_eq]

/-- The whole effect of every instruction on the forms the source gives it: its rule's exact result, narrowed once, in the
accumulator. -/
theorem effectOnSourceForms_make (m : Mnemonic) : EffectOnSourceForms (Instr.make m) (ruleOf m) := by
  intro rd rs1 rs2 s
  refine ⟨fun h hs hrd => ?_, fun h d acc hs hd hd0 ho hacc => ?_⟩
  · refine ⟨_, exec_make_rv64 hs rfl, ?_,
      Hart.read_advance_write h ((isZeroReg_eq_false_iff _ _).mpr hrd) _⟩
    rw [Hart.advance_pc, Hart.write_pc, toNat_toBits_add_four]
  · obtain rfl : d = (pairNum rd).toNat := hd.trans (pairNum_toNat rd).symm
    have hpair : pairNum rd ≠ 0 := fun e => hd0 (by rw [e]; rfl)
    rw [reg, reg, ofNat_eq_oddReg, ofNat_eq_evenReg] at hacc
    refine ⟨_, exec_make_writePair hs hpair ho hacc rfl, ?_, fun n => ?_⟩
    · rw [Hart.advance_pc, Hart.writePair_pc, toNat_toBits_add_four]
    · rw [Hart.read_advance, Hart.read_writePair h hpair]
      simp only [eq_oddReg_iff, eq_evenReg_iff]
      rfl

/-! ### Saturation and the flag -/

/-- A saturating instruction sets OV exactly where it changes the exact result (rules R57, R58). -/
theorem setsOv_eq_true_iff {m : Mnemonic} (hm : isSaturating m = true) (z : Int) :
    (ruleOf m).setsOv z = true ↔ (ruleOf m).narrow z ≠ z := by
  have hq : outsideQ63 z = true ↔ toQ63 z ≠ z := by
    simp only [outsideQ63, toQ63, decide_eq_true_eq]; omega
  have hu : outsideU64 z = true ↔ toU64 z ≠ z := by
    simp only [outsideU64, toU64, decide_eq_true_eq]; omega
  cases m
  case kmar64 | kmsr64 => exact hq
  case ukmar64 | ukmsr64 => exact hu
  all_goals cases hm

end Sys2Proof.Machine
end

section
/-! SUPPORT. The statements about the eight instructions on the source's forms and on register 0 of RV64, and about the
step at the binary level, settled. -/

namespace Sys2Proof.Proofs

open Sys2Proof.Machine Sys2Proof.Statements

/-- Settles O1. -/
theorem kmar64AddsSignedProductsAndSaturates : Obligations.Kmar64AddsSignedProductsAndSaturates :=
  effectOnSourceForms_make .kmar64

/-- Settles O2. -/
theorem kmsr64SubtractsSignedProductsAndSaturates :
    Obligations.Kmsr64SubtractsSignedProductsAndSaturates :=
  effectOnSourceForms_make .kmsr64

/-- Settles O3. -/
theorem smar64AddsSignedProductsAndWraps : Obligations.Smar64AddsSignedProductsAndWraps :=
  effectOnSourceForms_make .smar64

/-- Settles O4. -/
theorem smsr64SubtractsSignedProductsAndWraps : Obligations.Smsr64SubtractsSignedProductsAndWraps :=
  effectOnSourceForms_make .smsr64

/-- Settles O5. -/
theorem ukmar64AddsUnsignedProductsAndSaturates : Obligations.Ukmar64AddsUnsignedProductsAndSaturates :=
  effectOnSourceForms_make .ukmar64

/-- Settles O6. -/
theorem ukmsr64SubtractsUnsignedProductsAndSaturates :
    Obligations.Ukmsr64SubtractsUnsignedProductsAndSaturates :=
  effectOnSourceForms_make .ukmsr64

/-- Settles O7. -/
theorem umar64AddsUnsignedProductsAndWraps : Obligations.Umar64AddsUnsignedProductsAndWraps :=
  effectOnSourceForms_make .umar64

/-- Settles O8. -/
theorem umsr64SubtractsUnsignedProductsAndWraps : Obligations.Umsr64SubtractsUnsignedProductsAndWraps :=
  effectOnSourceForms_make .umsr64

/-- Settles O9: the accumulator reads 0 and its write is dropped. -/
theorem rv64AccumulatorRegisterZeroKeepsOnlyOv : Obligations.Rv64AccumulatorRegisterZeroKeepsOnlyOv := by
  intro m rs1 rs2 s h hs hx
  have hz : isZeroReg s.cfg 0 = true := (isZeroReg_zero s.cfg).trans hx
  rw [exec_make_rv64 hs rfl, Hart.read_zeroReg hz, Hart.write, if_pos hz, Hart.advance_eq]

/-- Settles O25: OV is set exactly where the one narrowing, after both lanes, changes the exact sum. -/
theorem rv64SaturatesOnceAfterBothLanes : Obligations.Rv64SaturatesOnceAfterBothLanes := by
  intro m rd rs1 rs2 s h z hm hs hz
  have hov := setsOv_eq_true_iff hm z
  refine ⟨_, _, exec_make_rv64 hs hz, fun hrd => ?_, fun hin => ?_, fun hout => ?_⟩
  · rw [Hart.read_advance_write h ((isZeroReg_eq_false_iff _ _).mpr hrd), if_pos rfl]
  · rw [hin, Bool.or_false]
    exact ⟨by simpa [hin] using hov, rfl⟩
  · rw [hout, Bool.or_true]
    exact ⟨hov.mp hout, rfl⟩

/-- Settles O32: the four bytes are the instruction's own word. -/
theorem stepRunsTheDecodedInstruction : Obligations.StepRunsTheDecodedInstruction := by
  intro s i b0 b1 b2 b3 hb hal hge hbelow h0 h1 h2 h3 hdec
  have hword : encode i = wordOfBytes b0 b1 b2 b3 := by
    refine decodeWord_eq_ok_iff.mp ?_
    simp only [decodeBytes] at hdec
    split at hdec
    · rename_i j hj
      cases hdec
      exact hj
    · cases hdec
  refine step_of_fetch (State.fetch_of_readWord_encode
    ((State.pcInText_iff s).mpr ⟨hal, hge, hbelow⟩) hb ?_)
  simp only [Memory.readWord, h0, h1, h2, h3, hword]

end Sys2Proof.Proofs
end

section
/-! SUPPORT. The ranges of the products and of the accumulator, what the signedness of each is worth, and the narrowings
as the nearest value (rules R55 to R58, R61, R71, R72). -/

namespace Sys2Proof.Machine

open Sys2Proof.Statements

/-! ### One product (rules R55, R56) -/

theorem signed_word_bounds (a : Word32) : -2 ^ 31 ≤ signed a ∧ signed a ≤ 2 ^ 31 - 1 :=
  ⟨a.le_toInt, BitVec.toInt_le⟩

theorem unsigned_word_bounds (a : Word32) : 0 ≤ unsigned a ∧ unsigned a ≤ 2 ^ 32 - 1 := by
  have := a.isLt
  unfold unsigned
  omega

theorem smul32_bounds (a b : Word32) : -2 ^ 62 + 2 ^ 31 ≤ smul32 a b ∧ smul32 a b ≤ 2 ^ 62 := by
  refine ⟨?_, BitVec.toInt_mul_toInt_le⟩
  obtain ⟨ha, ha'⟩ := signed_word_bounds a
  obtain ⟨hb, hb'⟩ := signed_word_bounds b
  unfold smul32
  rcases le_total 0 (signed a) with h | h
  · nlinarith [mul_le_mul_of_nonneg_left hb h]
  · nlinarith [mul_le_mul_of_nonpos_left hb' h]

/-- Only 0x80000000 as a factor brings the signed product to its upper end. -/
theorem smul32_lt_of_ne {a : Word32} (ha : a ≠ 0x80000000) (b : Word32) : smul32 a b < 2 ^ 62 := by
  have hne : signed a ≠ -2 ^ 31 := fun e => ha (BitVec.eq_of_toInt_eq e)
  obtain ⟨hlow, hhigh⟩ := signed_word_bounds a
  have ha' : -2 ^ 31 + 1 ≤ signed a := by omega
  obtain ⟨hb, hb'⟩ := signed_word_bounds b
  unfold smul32
  rcases le_total 0 (signed a) with h | h
  · nlinarith [mul_le_mul_of_nonneg_left hb' h]
  · nlinarith [mul_le_mul_of_nonpos_left hb h]

theorem smul32_comm (a b : Word32) : smul32 a b = smul32 b a := mul_comm _ _

theorem smul32_eq_upper_iff (a b : Word32) :
    smul32 a b = 2 ^ 62 ↔ a = 0x80000000 ∧ b = 0x80000000 := by
  refine ⟨fun h => ⟨?_, ?_⟩, fun ⟨ha, hb⟩ => by rw [ha, hb]; rfl⟩
  · exact by_contra fun ha => (smul32_lt_of_ne ha b).ne h
  · exact by_contra fun hb => (smul32_lt_of_ne hb a).ne (smul32_comm b a ▸ h)

theorem umul32_bounds (a b : Word32) : 0 ≤ umul32 a b ∧ umul32 a b ≤ 2 ^ 64 - 2 ^ 33 + 1 := by
  obtain ⟨ha, ha'⟩ := unsigned_word_bounds a
  obtain ⟨hb, hb'⟩ := unsigned_word_bounds b
  exact ⟨mul_nonneg ha hb, mul_le_mul ha' hb' hb (by norm_num)⟩

/-! ### The product term (rule R61) -/

theorem lowElement_append (a b : Word32) : lowElement (a ++ b) = b :=
  BitVec.extractLsb'_append_eq_right

theorem highElement_append (a b : Word32) : highElement (a ++ b) = a :=
  BitVec.extractLsb'_append_eq_left

section
variable {s : State} (rs1 rs2 : RegNum)

theorem prodSumS_rv32 {h : Hart 32} (hs : s.core = .rv32 h) :
    prodSumS s rs1 rs2 = smul32 (h.read s.cfg rs1) (h.read s.cfg rs2) := by
  simp only [prodSumS, hs, productS]

theorem prodSumU_rv32 {h : Hart 32} (hs : s.core = .rv32 h) :
    prodSumU s rs1 rs2 = umul32 (h.read s.cfg rs1) (h.read s.cfg rs2) := by
  simp only [prodSumU, hs, productU]

theorem prodSumS_rv64 {h : Hart 64} (hs : s.core = .rv64 h) :
    prodSumS s rs1 rs2 = productS .rv64 (h.read s.cfg rs1) (h.read s.cfg rs2) := by
  simp only [prodSumS, hs]

theorem prodSumU_rv64 {h : Hart 64} (hs : s.core = .rv64 h) :
    prodSumU s rs1 rs2 = productU .rv64 (h.read s.cfg rs1) (h.read s.cfg rs2) := by
  simp only [prodSumU, hs]

theorem prodSumS_bounds_rv32 (hx : s.xlen = .rv32) :
    -2 ^ 62 + 2 ^ 31 ≤ prodSumS s rs1 rs2 ∧ prodSumS s rs1 rs2 ≤ 2 ^ 62 := by
  obtain ⟨h, hs⟩ := State.exists_rv32_of_xlen hx
  rw [prodSumS_rv32 rs1 rs2 hs]
  exact smul32_bounds _ _

/-- The bounds of the signed term at either width, which are those of two lanes. -/
theorem prodSumS_bounds (s : State) :
    -2 ^ 63 + 2 ^ 32 ≤ prodSumS s rs1 rs2 ∧ prodSumS s rs1 rs2 ≤ 2 ^ 63 := by
  cases hs : s.core with
  | rv32 h =>
    have := prodSumS_bounds_rv32 rs1 rs2 (State.xlen_of_rv32 hs)
    omega
  | rv64 h =>
    rw [prodSumS_rv64 rs1 rs2 hs, productS]
    have hlow := smul32_bounds (lowElement (h.read s.cfg rs1)) (lowElement (h.read s.cfg rs2))
    have hhigh := smul32_bounds (highElement (h.read s.cfg rs1)) (highElement (h.read s.cfg rs2))
    omega

/-- The bounds of the unsigned term at either width, which are those of two lanes. -/
theorem prodSumU_bounds (s : State) :
    0 ≤ prodSumU s rs1 rs2 ∧ prodSumU s rs1 rs2 ≤ 2 ^ 65 - 2 ^ 34 + 2 := by
  cases hs : s.core with
  | rv32 h =>
    rw [prodSumU_rv32 rs1 rs2 hs]
    have := umul32_bounds (h.read s.cfg rs1) (h.read s.cfg rs2)
    omega
  | rv64 h =>
    rw [prodSumU_rv64 rs1 rs2 hs, productU]
    have hlow := umul32_bounds (lowElement (h.read s.cfg rs1)) (lowElement (h.read s.cfg rs2))
    have hhigh := umul32_bounds (highElement (h.read s.cfg rs1)) (highElement (h.read s.cfg rs2))
    omega

end

/-- The signed RV64 term leaves Q63 by itself only where both lanes are at the product's upper end. -/
theorem outsideQ63_productS_iff (a b : DWord) : outsideQ63 (productS .rv64 a b) = true ↔
    a = 0x8000000080000000 ∧ b = 0x8000000080000000 := by
  have hlow := smul32_bounds (lowElement a) (lowElement b)
  have hhigh := smul32_bounds (highElement a) (highElement b)
  have hends : outsideQ63 (productS .rv64 a b) = true ↔
      smul32 (lowElement a) (lowElement b) = 2 ^ 62 ∧
        smul32 (highElement a) (highElement b) = 2 ^ 62 := by
    rw [outsideQ63, productS, decide_eq_true_eq]
    omega
  have hclow : lowElement 0x8000000080000000 = 0x80000000 := by decide
  have hchigh : highElement 0x8000000080000000 = 0x80000000 := by decide
  rw [hends, smul32_eq_upper_iff, smul32_eq_upper_iff, eq_iff_elements (v := a),
    eq_iff_elements (v := b), hclow, hchigh]
  exact and_and_and_comm

/-- Rule R9's choice of which half is element 0 makes no difference to a term. -/
theorem product_exchange_halves (a b : DWord) :
    productS .rv64 (lowElement a ++ highElement a) (lowElement b ++ highElement b) =
        productS .rv64 a b ∧
      productU .rv64 (lowElement a ++ highElement a) (lowElement b ++ highElement b) =
        productU .rv64 a b := by
  simp only [productS, productU, lowElement_append, highElement_append]
  exact ⟨add_comm _ _, add_comm _ _⟩

/-! ### The accumulator (rules R59, R71) -/

theorem signed_acc_bounds (acc : DWord) : -2 ^ 63 ≤ signed acc ∧ signed acc ≤ 2 ^ 63 - 1 :=
  ⟨acc.le_toInt, BitVec.toInt_le⟩

theorem unsigned_acc_bounds (acc : DWord) : 0 ≤ unsigned acc ∧ unsigned acc ≤ 2 ^ 64 - 1 := by
  have := acc.isLt
  unfold unsigned
  omega

/-! ### Signedness (rule R72) -/

theorem ofInt_signed_add (acc : DWord) (p : Int) :
    BitVec.ofInt 64 (signed acc + p) = BitVec.ofInt 64 (unsigned acc + p) := by
  rw [BitVec.ofInt_add, BitVec.ofInt_add, BitVec.ofInt_toInt, BitVec.ofInt_natCast, BitVec.ofNat_toNat,
    BitVec.setWidth_eq]

theorem signed_word_eq (a : Word32) : signed a = unsigned a - 2 ^ 32 * (a.getLsbD 31).toNat := by
  rw [signed, BitVec.toInt_eq_msb_cond, BitVec.msb_eq_getLsbD_last]
  cases a.getLsbD 31 <;> simp

theorem umul32_sub_smul32 (a b : Word32) : umul32 a b - smul32 a b =
    2 ^ 32 * ((a.getLsbD 31).toNat * b.toNat + (b.getLsbD 31).toNat * a.toNat) -
      2 ^ 64 * ((a.getLsbD 31).toNat * (b.getLsbD 31).toNat) := by
  rw [umul32, smul32, signed_word_eq a, signed_word_eq b]
  ring

theorem ofInt_eq_ofInt_iff (x y : Int) :
    BitVec.ofInt 64 x = BitVec.ofInt 64 y ↔ (y - x) % 2 ^ 64 = 0 := by
  rw [← BitVec.toNat_inj, BitVec.toNat_ofInt, BitVec.toNat_ofInt]
  omega

/-- The two products added to one accumulator leave the same low 64 bits exactly where their difference is a multiple of
2^64. -/
theorem ofInt_add_smul32_eq_iff (acc : DWord) (a b : Word32) :
    BitVec.ofInt 64 (signed acc + smul32 a b) = BitVec.ofInt 64 (unsigned acc + umul32 a b) ↔
      ((a.getLsbD 31).toNat * b.toNat + (b.getLsbD 31).toNat * a.toNat) % 2 ^ 32 = 0 := by
  rw [ofInt_signed_add, ofInt_eq_ofInt_iff, add_sub_add_left_eq_sub, umul32_sub_smul32]
  omega

/-! ### The narrowings (rules R57, R58) -/

theorem toInt_ofInt_toQ63 (z : Int) : (BitVec.ofInt 64 (toQ63 z)).toInt = toQ63 z :=
  BitVec.toInt_ofInt_eq_self (by decide) (le_max_left _ _)
    (show toQ63 z < 2 ^ 63 by simp only [toQ63]; omega)

theorem toNat_ofInt_toU64 (z : Int) : ((BitVec.ofInt 64 (toU64 z)).toNat : Int) = toU64 z := by
  rw [BitVec.toNat_ofInt]
  simp only [toU64]
  omega

end Sys2Proof.Machine
end

section
/-! SUPPORT. The statements about the arithmetic, settled. -/

namespace Sys2Proof.Proofs

open Sys2Proof.Machine Sys2Proof.Statements

/-- Settles O18. -/
theorem signedProductIsExactWithItsRange : Obligations.SignedProductIsExactWithItsRange :=
  ⟨fun a b => ⟨rfl, smul32_bounds a b⟩, rfl, rfl⟩

/-- Settles O19. -/
theorem unsignedProductIsExactWithItsRange : Obligations.UnsignedProductIsExactWithItsRange :=
  ⟨fun a b => ⟨rfl, umul32_bounds a b⟩, rfl, rfl⟩

/-- Settles O20. -/
theorem productTermPerWidthWithItsRanges : Obligations.ProductTermPerWidthWithItsRanges := by
  refine ⟨fun s h rs1 rs2 hs => ⟨prodSumS_rv32 rs1 rs2 hs, prodSumU_rv32 rs1 rs2 hs⟩, ?_,
    product_exchange_halves⟩
  rintro s h rs1 rs2 a b hs rfl rfl
  obtain ⟨hS, hS'⟩ := prodSumS_bounds rs1 rs2 s
  refine ⟨prodSumS_rv64 rs1 rs2 hs, prodSumU_rv64 rs1 rs2 hs, hS, hS', ?_, prodSumU_bounds rs1 rs2 s⟩
  rw [prodSumS_rv64 rs1 rs2 hs]
  exact outsideQ63_productS_iff _ _

/-- Settles O21. -/
theorem saturationToQ63GivesTheNearestValue : Obligations.SaturationToQ63GivesTheNearestValue := by
  intro z
  rw [satQ63_eq]
  refine ⟨toInt_ofInt_toQ63 z, rfl, fun hlow hhigh => ?_⟩
  have hz : toQ63 z = z := by simp only [toQ63]; omega
  rw [hz]

/-- Settles O22. -/
theorem saturationToU64GivesTheNearestValue : Obligations.SaturationToU64GivesTheNearestValue := by
  refine ⟨fun z => ?_, fun s acc rs1 rs2 => ?_⟩
  · rw [satU64_eq]
    refine ⟨toNat_ofInt_toU64 z, rfl, fun hlow hhigh => ?_⟩
    have hz : toU64 z = z := by simp only [toU64]; omega
    rw [hz]
  · have hp := prodSumU_bounds rs1 rs2 s
    have ha := unsigned_acc_bounds acc
    unfold unsigned at ha
    omega

/-- Settles O23: the bounds of the accumulator and of the product term add up, and each extreme is a computation. -/
theorem exactResultsFitSixtySevenSignedBits : Obligations.ExactResultsFitSixtySevenSignedBits := by
  refine ⟨fun s acc rs1 rs2 z hz => ?_, fun s acc rs1 rs2 z hz => ⟨fun hx => ?_, fun _ => ?_⟩,
    fun s acc rs1 rs2 _ => ?_, fun s h rs1 rs2 hs h1 h2 => ?_, fun s h rs1 rs2 hs h1 h2 => ?_,
    fun s h rs1 rs2 hs h1 h2 => ?_⟩
  · have hS := prodSumS_bounds rs1 rs2 s
    have hU := prodSumU_bounds rs1 rs2 s
    have ha := signed_acc_bounds acc
    have hu := unsigned_acc_bounds acc
    omega
  · have hS := prodSumS_bounds_rv32 rs1 rs2 hx
    have ha := signed_acc_bounds acc
    omega
  · have hS := prodSumS_bounds rs1 rs2 s
    have ha := signed_acc_bounds acc
    omega
  · have hU := prodSumU_bounds rs1 rs2 s
    have hu := unsigned_acc_bounds acc
    omega
  · rw [prodSumS_rv32 rs1 rs2 hs, h1, h2]
    decide
  · rw [prodSumS_rv64 rs1 rs2 hs, h1, h2]
    decide
  · rw [prodSumU_rv64 rs1 rs2 hs, h1, h2]
    decide

/-- Settles O24: both executions write a pair of the same registers, so they agree exactly where the 64 bits do. -/
theorem signednessMattersOnlyInTheProduct : Obligations.SignednessMattersOnlyInTheProduct := by
  refine ⟨ofInt_signed_add, umul32_sub_smul32, ?_⟩
  rintro rd rs1 rs2 s h a b hs hd ho rfl rfl
  have hpair : pairNum rd ≠ 0 := fun e => hd ((pairNum_eq_zero_iff rd).mp e)
  have hsmar := exec_make_writePair (m := .smar64) (rs1 := rs1) (rs2 := rs2) hs hpair ho rfl rfl
  have humar := exec_make_writePair (m := .umar64) (rs1 := rs1) (rs2 := rs2) hs hpair ho rfl rfl
  change exec (Instr.make .smar64 rd rs1 rs2) s = exec (Instr.make .umar64 rd rs1 rs2) s ↔ _
  rw [hsmar, humar, ← ofInt_add_smul32_eq_iff
    (h.read s.cfg (oddReg (pairNum rd)) ++ h.read s.cfg (evenReg (pairNum rd))),
    ← Hart.advance_writePair_inj (c := s.cfg) h hpair]
  simp only [Host.Outcome.next.injEq, State.mk.injEq, Core.rv32.injEq, and_true]
  exact and_iff_left rfl

end Sys2Proof.Proofs
end

section
/-! SUPPORT. The multiplicands in either order (rule R61), and what an instruction and its C intrinsic leave in the
accumulator and in OV (rules R81, R85 to R92). -/

namespace Sys2Proof.Machine

open Sys2Proof.Statements

/-! ### The multiplicands in either order -/

theorem umul32_comm (a b : Word32) : umul32 a b = umul32 b a := mul_comm _ _

theorem productS_comm (x : Xlen) (a b : BitVec x.bits) : productS x a b = productS x b a := by
  cases x with
  | rv32 => exact smul32_comm a b
  | rv64 => exact congrArg₂ (· + ·) (smul32_comm _ _) (smul32_comm _ _)

theorem productU_comm (x : Xlen) (a b : BitVec x.bits) : productU x a b = productU x b a := by
  cases x with
  | rv32 => exact umul32_comm a b
  | rv64 => exact congrArg₂ (· + ·) (umul32_comm _ _) (umul32_comm _ _)

theorem prodSumS_comm (s : State) (a b : RegNum) : prodSumS s a b = prodSumS s b a := by
  unfold prodSumS
  cases s.core with
  | rv32 h => exact productS_comm .rv32 _ _
  | rv64 h => exact productS_comm .rv64 _ _

theorem prodSumU_comm (s : State) (a b : RegNum) : prodSumU s a b = prodSumU s b a := by
  unfold prodSumU
  cases s.core with
  | rv32 h => exact productU_comm .rv32 _ _
  | rv64 h => exact productU_comm .rv64 _ _

/-- The multiplicands enter a narrowing through a product term, in which their order does not count. -/
theorem narrowing_make_comm (m : Mnemonic) (rd a b : RegNum) (s : State) :
    narrowing (Instr.make m rd a b) s = narrowing (Instr.make m rd b a) s := by
  funext acc
  cases m
  case kmar64 | kmsr64 | smar64 | smsr64 => simp only [Instr.make, narrowing, prodSumS_comm s a b]
  case ukmar64 | ukmsr64 | umar64 | umsr64 => simp only [Instr.make, narrowing, prodSumU_comm s a b]

/-! ### The value of an intrinsic -/

section
variable {s : State} (m : Mnemonic) (rd rs1 rs2 : RegNum) (t : DWord)

/-- The exact result of an RV64 instruction is its rule's on the registers read. -/
theorem exactResult_make_rv64 {h : Hart 64} (hs : s.core = .rv64 h) :
    exactResult (Instr.make m rd rs1 rs2) s t =
      (ruleOf m).rv64 t (h.read s.cfg rs1) (h.read s.cfg rs2) := by
  simp only [exactResult, hs, Instr.make_mnemonic, Instr.make_rs1, Instr.make_rs2]

/-- An intrinsic is the narrowing of its instruction, on the values of the multiplicands (rules R85 to R92). -/
theorem narrowing_make_rv64 {h : Hart 64} (hs : s.core = .rv64 h) :
    narrowing (Instr.make m rd rs1 rs2) s t =
      rvIntrinsic m .rv64 t (h.read s.cfg rs1) (h.read s.cfg rs2) := by
  have hS := prodSumS_rv64 rs1 rs2 hs
  have hU := prodSumU_rv64 rs1 rs2 hs
  cases m
  case kmar64 | kmsr64 | smar64 | smsr64 => simp only [Instr.make, narrowing, hS]; rfl
  case ukmar64 | ukmsr64 | umar64 | umsr64 => simp only [Instr.make, narrowing, hU]; rfl

theorem narrowing_make_rv32 {h : Hart 32} (hs : s.core = .rv32 h) :
    narrowing (Instr.make m rd rs1 rs2) s t =
      rvIntrinsic m .rv32 t (h.read s.cfg rs1) (h.read s.cfg rs2) := by
  have hS := prodSumS_rv32 rs1 rs2 hs
  have hU := prodSumU_rv32 rs1 rs2 hs
  cases m
  case kmar64 | kmsr64 | smar64 | smsr64 => simp only [Instr.make, narrowing, hS]; rfl
  case ukmar64 | ukmsr64 | umar64 | umsr64 => simp only [Instr.make, narrowing, hU]; rfl

/-- An intrinsic's value and flag are its rule's, on the values an RV64 instruction reads. -/
theorem rvIntrinsic_rv64_eq_rule {h : Hart 64} (hs : s.core = .rv64 h) {z : Int}
    (hz : z = (ruleOf m).rv64 t (h.read s.cfg rs1) (h.read s.cfg rs2)) :
    rvIntrinsic m .rv64 t (h.read s.cfg rs1) (h.read s.cfg rs2) =
      (BitVec.ofInt 64 ((ruleOf m).narrow z), (ruleOf m).setsOv z) := by
  rw [← narrowing_make_rv64 m 0 rs1 rs2 t hs, narrowing_eq_rule, exactResult_make_rv64 m 0 rs1 rs2 t hs,
    Instr.make_mnemonic, hz]

theorem rvIntrinsic_rv32_eq_rule {h : Hart 32} (hs : s.core = .rv32 h) {z : Int}
    (hz : z = (ruleOf m).rv32 t (h.read s.cfg rs1) (h.read s.cfg rs2)) :
    rvIntrinsic m .rv32 t (h.read s.cfg rs1) (h.read s.cfg rs2) =
      (BitVec.ofInt 64 ((ruleOf m).narrow z), (ruleOf m).setsOv z) := by
  rw [← narrowing_make_rv32 m 0 rs1 rs2 t hs, narrowing_eq_rule, exactResult_make_rv32 hs m 0 rs1 rs2 t,
    Instr.make_mnemonic, hz]

end

/-! ### The accumulator after an execution -/

theorem accRead_of_rv64 {s : State} {h : Hart 64} (hs : s.core = .rv64 h) (rd : RegNum) :
    accRead s rd = .ok (h.read s.cfg rd) := by
  simp only [accRead, hs]

theorem accRead_of_rv32 {s : State} {h : Hart 32} {rd : RegNum} (hs : s.core = .rv32 h)
    (ho : rd.toNat % 2 = 1 → s.cfg.oddRd = .ignoreBit0) :
    accRead s rd = pairRead s.cfg h (pairNum rd) := by
  simp only [accRead, hs, oddRdRefused_eq_false ho, Bool.false_eq_true, if_false]

/-- A pair read after a pair write gives the value written (rules R13, R14). -/
theorem pairRead_advance_writePair {c : Config} (h : Hart 32) {d : BitVec 4} (hd : d ≠ 0) (v : DWord) :
    pairRead c (h.writePair c d v).advance d = .ok v := by
  rw [pairRead_of_ne_zero _ hd, Hart.read_advance, Hart.read_advance, Hart.read_writePair h hd,
    Hart.read_writePair h hd, if_pos rfl, if_neg (oddReg_ne_evenReg d).symm, if_pos rfl,
    highElement_append_lowElement]

section
variable {m : Mnemonic} {rd rs1 rs2 : RegNum} {s : State} {z : Int}

/-- On RV64 an instruction leaves its narrowed exact result in an accumulator that is no constant, and OV set or as it
was. -/
theorem exec_make_accRead_rv64 {h : Hart 64} (hs : s.core = .rv64 h)
    (hrd : ¬ (s.cfg.x0Hardwired = true ∧ rd = 0))
    (hz : z = (ruleOf m).rv64 (h.read s.cfg rd) (h.read s.cfg rs1) (h.read s.cfg rs2)) :
    ∃ u, exec (Instr.make m rd rs1 rs2) s = .next u ∧
      accRead u rd = .ok (BitVec.ofInt 64 ((ruleOf m).narrow z)) ∧
      u.ov = (s.ov || (ruleOf m).setsOv z) := by
  refine ⟨_, exec_make_rv64 hs hz, ?_, rfl⟩
  rw [accRead_of_rv64 rfl, Hart.read_advance_write h ((isZeroReg_eq_false_iff _ _).mpr hrd), if_pos rfl]

/-- On RV32 an instruction leaves its narrowed exact result in a pair d from 1 to 15, and OV set or as it was. -/
theorem exec_make_accRead_rv32 {h : Hart 32} {acc : DWord} (hs : s.core = .rv32 h) (hd : pairNum rd ≠ 0)
    (ho : rd.toNat % 2 = 1 → s.cfg.oddRd = .ignoreBit0)
    (hacc : acc = h.read s.cfg (oddReg (pairNum rd)) ++ h.read s.cfg (evenReg (pairNum rd)))
    (hz : z = (ruleOf m).rv32 acc (h.read s.cfg rs1) (h.read s.cfg rs2)) :
    ∃ u, exec (Instr.make m rd rs1 rs2) s = .next u ∧
      accRead u rd = .ok (BitVec.ofInt 64 ((ruleOf m).narrow z)) ∧
      u.ov = (s.ov || (ruleOf m).setsOv z) := by
  refine ⟨_, exec_make_writePair hs hd ho hacc hz, ?_, rfl⟩
  exact (accRead_of_rv32 rfl (by exact ho)).trans (pairRead_advance_writePair h hd _)

end

end Sys2Proof.Machine
end

section
/-! SUPPORT. The statements about the order of the multiplicands and about the C intrinsics, settled. -/

namespace Sys2Proof.Proofs

open Sys2Proof.Machine Sys2Proof.Statements

/-- Settles O17. -/
theorem multiplicandsMayChangePlaces : Obligations.MultiplicandsMayChangePlaces := by
  intro m rd a b s
  rw [exec_eq_accumulate, exec_eq_accumulate, Instr.make_rd, Instr.make_rd, narrowing_make_comm]

/-- Settles O43: an intrinsic is its instruction's narrowing, which one execution leaves in the accumulator. -/
theorem intrinsicsReturnWhatTheInstructionsLeave :
    Obligations.IntrinsicsReturnWhatTheInstructionsLeave := by
  intro m rd rs1 rs2 s
  refine ⟨?_, ?_⟩
  · rintro h t a b hs hrd rfl rfl rfl
    rw [rvIntrinsic_rv64_eq_rule m rs1 rs2 _ hs rfl]
    exact ⟨rfl, exec_make_accRead_rv64 hs hrd rfl⟩
  · rintro h t a b hs hd ho ht rfl rfl
    rw [← pairNum_toNat, reg, reg, ofNat_eq_oddReg, ofNat_eq_evenReg] at ht
    rw [rvIntrinsic_rv32_eq_rule m rs1 rs2 t hs rfl]
    exact ⟨rfl, exec_make_accRead_rv32 hs (mt (pairNum_eq_zero_iff rd).mp hd) ho ht rfl⟩

end Sys2Proof.Proofs
end

section
/-! SUPPORT. What stops an execution: the two register refusals of RV32, and no other condition (rules R13, R14, R59). -/

namespace Sys2Proof.Machine

open Sys2Proof.Statements

theorem oddRdRefused_iff (c : Config) (rd : RegNum) :
    oddRdRefused c rd = true ↔ rd.toNat % 2 = 1 ∧ c.oddRd = .refuse := by
  simp [oddRdRefused, BitVec.getLsbD, Nat.testBit_zero]

section
variable {s : State}

theorem oddRdStops_rv32_iff {h : Hart 32} (hs : s.core = .rv32 h) (rd : RegNum) :
    OddRdStops s rd ↔ oddRdRefused s.cfg rd = true := by
  simp only [OddRdStops, State.xlen_of_rv32 hs, true_and, oddRdRefused_iff]

theorem pair0Stops_rv32_iff {h : Hart 32} (hs : s.core = .rv32 h) (rd : RegNum) :
    Pair0Stops s rd ↔ pairNum rd = 0 ∧ s.cfg.pair0 = .refuse := by
  simp only [Pair0Stops, State.xlen_of_rv32 hs, true_and, pairNum_eq_zero_iff]

theorem not_stops_rv64 {h : Hart 64} (hs : s.core = .rv64 h) (rd : RegNum) :
    ¬ OddRdStops s rd ∧ ¬ Pair0Stops s rd := by
  simp [OddRdStops, Pair0Stops, State.xlen_of_rv64 hs]

end

/-- A pair read that answers a value is not of a pair 0 that the parameters refuse (rule R13). -/
theorem not_pair0_refused_of_pairRead {c : Config} {h : Hart 32} {d : BitVec 4} {v : DWord}
    (hr : pairRead c h d = .ok v) : ¬ (d = 0 ∧ c.pair0 = .refuse) := by
  rintro ⟨rfl, hp⟩
  simp [pairRead, hp] at hr

/-- Everything an execution can answer, with the condition of each answer: the odd check first, then the pair, and on RV64
neither. -/
theorem exec_cases (i : Instr) (s : State) :
    (OddRdStops s i.rd ∧ exec i s = .refused .oddRd) ∨
    (¬ OddRdStops s i.rd ∧ Pair0Stops s i.rd ∧ exec i s = .refused .pair0) ∨
    (¬ OddRdStops s i.rd ∧ ¬ Pair0Stops s i.rd ∧ ∃ t, exec i s = .next t) := by
  rw [exec_eq_accumulate]
  cases hs : s.core with
  | rv64 h =>
    obtain ⟨ho, hp⟩ := not_stops_rv64 hs i.rd
    exact .inr (.inr ⟨ho, hp, _, accumulate_rv64 hs _ _⟩)
  | rv32 h =>
    rw [oddRdStops_rv32_iff hs, pair0Stops_rv32_iff hs, Bool.not_eq_true]
    rcases accumulate_rv32 hs i.rd (narrowing i s) with
      ⟨ho, e⟩ | ⟨ho, hd, hp, e⟩ | ⟨ho, acc, h', hr, -, e⟩
    · exact .inl ⟨ho, e⟩
    · exact .inr (.inl ⟨ho, ⟨hd, hp⟩, e⟩)
    · exact .inr (.inr ⟨ho, not_pair0_refused_of_pairRead hr, _, e⟩)

theorem exec_eq_oddRd_iff (i : Instr) (s : State) : exec i s = .refused .oddRd ↔ OddRdStops s i.rd := by
  rcases exec_cases i s with ⟨ho, e⟩ | ⟨ho, -, e⟩ | ⟨ho, -, t, e⟩ <;> simp [e, ho]

theorem exec_eq_pair0_iff (i : Instr) (s : State) :
    exec i s = .refused .pair0 ↔ Pair0Stops s i.rd ∧ ¬ OddRdStops s i.rd := by
  rcases exec_cases i s with ⟨ho, e⟩ | ⟨ho, hp, e⟩ | ⟨-, hp, t, e⟩
  · simp [e, ho]
  · simp [e, ho, hp]
  · simp [e, hp]

theorem exists_exec_next_iff (i : Instr) (s : State) :
    (∃ t, exec i s = .next t) ↔ ¬ OddRdStops s i.rd ∧ ¬ Pair0Stops s i.rd := by
  rcases exec_cases i s with ⟨ho, e⟩ | ⟨-, hp, e⟩ | ⟨ho, hp, t, e⟩
  · simp [e, ho]
  · simp [e, hp]
  · simp [e, ho, hp]

end Sys2Proof.Machine
end

section
/-! SUPPORT. What stops a fetch, at each level, and a step (rules R29, R47, R98, R118). -/

namespace Sys2Proof

/-- Rule R47: the decoder rejects a whole word for one reason. -/
theorem decodeWord_eq_notInScope_of_error {w : Word32} {e : DecodeReject} (h : decodeWord w = .error e) :
    decodeWord w = .error .notInScope := by
  unfold decodeWord at h ⊢
  split at h
  · cases h
  · rfl

theorem AsmLine.exists_toInstr_error_iff (l : AsmLine) :
    (∃ e, l.toInstr = .error e) ↔ l.wellFormed = false := by
  rw [← Bool.not_eq_true, AsmLine.wellFormed_iff_exists_toInstr]
  cases l.toInstr <;> simp

end Sys2Proof

namespace Sys2Proof.Machine

/-! ### The fetch -/

theorem refuseDecode_eq_error_iff (d : Except DecodeReject Instr) (r : Refusal) :
    refuseDecode d = .error r ↔ r = .notInScope ∧ ∃ e, d = .error e := by
  cases d <;> simp [refuseDecode, eq_comm]

/-- Log entry 6: no word is read exactly where one of its four bytes is absent. -/
theorem Memory.readWord_eq_none_iff (m : Memory) (a : Nat) :
    Memory.readWord m a = none ↔ ∃ j, j < 4 ∧ Memory.readByte m (a + j) = none := by
  constructor
  · intro h
    by_contra hall
    push Not at hall
    obtain ⟨w, hw⟩ := Memory.exists_readWord fun j hj => Option.isSome_iff_ne_none.mpr (hall j hj)
    rw [h] at hw
    cases hw
  · rintro ⟨j, hj, hb⟩
    unfold Memory.readWord
    split
    · rename_i h0 h1 h2 h3
      interval_cases j <;> simp [h0, h1, h2, h3] at hb
    · rfl

section
variable (s : State)

/-- What a binary fetch refuses: an absent word and a word that is no instruction. -/
theorem State.fetchBinary_eq_error_iff (r : Refusal) : s.fetchBinary = .error r ↔
    (r = .badFetch ∧ Memory.readWord s.mem s.pcVal = none) ∨
    (r = .notInScope ∧ ∃ w, Memory.readWord s.mem s.pcVal = some w ∧
      decodeWord w = .error .notInScope) := by
  unfold State.fetchBinary
  cases Memory.readWord s.mem s.pcVal with
  | none => simp [eq_comm (b := r)]
  | some w =>
    have hw : (∃ e, decodeWord w = .error e) ↔ decodeWord w = .error .notInScope :=
      ⟨fun ⟨_, h⟩ => decodeWord_eq_notInScope_of_error h, fun h => ⟨_, h⟩⟩
    simp [refuseDecode_eq_error_iff, hw]

/-- What a textual fetch refuses: an absent record and a record that is no instruction. -/
theorem State.fetchTextual_eq_error_iff (r : Refusal) : s.fetchTextual = .error r ↔
    (r = .badFetch ∧ s.listing.length ≤ (s.pcVal - s.cfg.textBase) / 4) ∨
    (r = .notInScope ∧ ∃ l, s.listing[(s.pcVal - s.cfg.textBase) / 4]? = some l ∧
      l.wellFormed = false) := by
  rw [← List.getElem?_eq_none_iff]
  unfold State.fetchTextual
  cases s.listing[(s.pcVal - s.cfg.textBase) / 4]? with
  | none => simp [eq_comm (b := r)]
  | some l => simp [refuseDecode_eq_error_iff, AsmLine.exists_toInstr_error_iff]

/-- What a fetch refuses: a `pc` outside the text, and what its level refuses. -/
theorem State.fetch_eq_error_iff (r : Refusal) : s.fetch = .error r ↔
    (s.pcInText = false ∧ r = .badFetch) ∨
    (s.pcInText = true ∧ s.cfg.binaryLevel = true ∧ s.fetchBinary = .error r) ∨
    (s.pcInText = true ∧ s.cfg.binaryLevel = false ∧ s.fetchTextual = .error r) := by
  unfold State.fetch
  cases s.pcInText <;> cases s.cfg.binaryLevel <;> simp [eq_comm]

/-- Rule R29 with log entries 6 and 20: a fetch is bad outside the text and where its byte or record is absent. -/
theorem State.fetch_eq_badFetch_iff : s.fetch = .error .badFetch ↔
    s.pcInText = false ∨
    (s.cfg.binaryLevel = true ∧ ∃ j, j < 4 ∧ Memory.readByte s.mem (s.pcVal + j) = none) ∨
    (s.cfg.binaryLevel = false ∧ s.listing.length ≤ (s.pcVal - s.cfg.textBase) / 4) := by
  rw [State.fetch_eq_error_iff, State.fetchBinary_eq_error_iff, State.fetchTextual_eq_error_iff,
    Memory.readWord_eq_none_iff]
  cases s.pcInText <;> simp

/-- Rule R47 with log entry 19: a fetch inside the text is out of scope where its word or record is no instruction. -/
theorem State.fetch_eq_notInScope_iff : s.fetch = .error .notInScope ↔ s.pcInText = true ∧
    ((s.cfg.binaryLevel = true ∧ ∃ w, Memory.readWord s.mem s.pcVal = some w ∧
        decodeWord w = .error .notInScope) ∨
      (s.cfg.binaryLevel = false ∧ ∃ l, s.listing[(s.pcVal - s.cfg.textBase) / 4]? = some l ∧
        l.wellFormed = false)) := by
  rw [State.fetch_eq_error_iff, State.fetchBinary_eq_error_iff, State.fetchTextual_eq_error_iff]
  cases s.pcInText <;> simp

/-- A fetch is refused as bad or as out of scope. -/
theorem State.fetch_error_cases {r : Refusal} (h : s.fetch = .error r) : r = .badFetch ∨ r = .notInScope := by
  rw [State.fetch_eq_error_iff, State.fetchBinary_eq_error_iff, State.fetchTextual_eq_error_iff] at h
  rcases h with ⟨-, h⟩ | ⟨-, -, ⟨h, -⟩ | ⟨h, -⟩⟩ | ⟨-, -, ⟨h, -⟩ | ⟨h, -⟩⟩
  exacts [.inl h, .inl h, .inr h, .inl h, .inr h]

theorem State.pcInText_eq_false_iff : s.pcInText = false ↔
    s.pcVal % 4 ≠ 0 ∨ s.pcVal < s.cfg.textBase ∨ s.cfg.textEnd ≤ s.pcVal := by
  rw [← Bool.not_eq_true, State.pcInText_iff]
  omega

theorem State.isFinal_iff : s.isFinal = true ↔ s.pcVal = s.cfg.textEnd := by
  simp only [State.isFinal, decide_eq_true_eq]

end

/-! ### The step -/

/-- Rule R98's order: a step is refused at the end of the text, else by its fetch, else by its execution. -/
theorem step_eq_refused_iff (s : State) (r : Refusal) : step s = .refused r ↔
    (s.pcVal = s.cfg.textEnd ∧ r = .runFinal) ∨
    (s.pcVal ≠ s.cfg.textEnd ∧ s.fetch = .error r) ∨
    (s.pcVal ≠ s.cfg.textEnd ∧ ∃ i, s.fetch = .ok i ∧ exec i s = .refused r) := by
  unfold step
  by_cases hf : s.pcVal = s.cfg.textEnd
  · simp [hf, s.isFinal_iff.mpr hf, eq_comm]
  · cases s.fetch <;> simp [hf, State.isFinal_iff]

section
variable {s : State} {r : Refusal}

theorem step_eq_runFinal_iff : step s = .refused .runFinal ↔ s.pcVal = s.cfg.textEnd := by
  have hfetch : s.fetch ≠ .error .runFinal := fun h => by simpa using State.fetch_error_cases s h
  have hexec : ∀ i, exec i s ≠ .refused .runFinal := fun i h => by simpa using exec_refused_cases h
  simp [step_eq_refused_iff, hfetch, hexec]

theorem step_eq_fetch_refusal_iff (hr : r = .badFetch ∨ r = .notInScope) :
    step s = .refused r ↔ s.pcVal ≠ s.cfg.textEnd ∧ s.fetch = .error r := by
  have hexec : ∀ i, exec i s ≠ .refused r := fun i h => by
    rcases hr with rfl | rfl <;> simpa using exec_refused_cases h
  have hfinal : r ≠ .runFinal := by rcases hr with rfl | rfl <;> simp
  simp [step_eq_refused_iff, hexec, hfinal]

theorem step_eq_exec_refusal_iff (hr : r = .oddRd ∨ r = .pair0) : step s = .refused r ↔
    s.pcVal ≠ s.cfg.textEnd ∧ ∃ i, s.fetch = .ok i ∧ exec i s = .refused r := by
  have hfetch : s.fetch ≠ .error r := fun h => by
    rcases hr with rfl | rfl <;> simpa using State.fetch_error_cases s h
  have hfinal : r ≠ .runFinal := by rcases hr with rfl | rfl <;> simp
  simp [step_eq_refused_iff, hfetch, hfinal]

/-- Every instruction has a meaning, so no step is refused for the want of one. -/
theorem step_ne_notModelled (s : State) (m : String) : step s ≠ .refused (.notModelled m) := by
  intro h
  rcases step_refused_cases h with ⟨-, hr⟩ | ⟨-, hr⟩ | hr | hr
  · cases hr
  · simpa using State.fetch_error_cases s hr
  · cases hr
  · cases hr

/-- A step is out of scope exactly where its fetch is: a fetch inside the text is not at its end. -/
theorem step_eq_notInScope_iff : step s = .refused .notInScope ↔ s.fetch = .error .notInScope := by
  rw [step_eq_fetch_refusal_iff (.inr rfl), and_iff_right_iff_imp, State.fetch_eq_notInScope_iff,
    State.pcInText_iff]
  rintro ⟨⟨-, -, hlt⟩, -⟩
  exact hlt.ne

end

end Sys2Proof.Machine
end

section
/-! SUPPORT. The statements about what stops an instruction and a step, settled. -/

namespace Sys2Proof.Proofs

open Sys2Proof.Machine Sys2Proof.Statements

/-- Settles O12, from the three answers of an execution and their conditions. -/
theorem execStopsExactlyOnRefusedRegisterPairs : Obligations.ExecStopsExactlyOnRefusedRegisterPairs :=
  fun i s => ⟨exec_ne_fault i s, exec_eq_oddRd_iff i s, exec_eq_pair0_iff i s,
    fun _ => exec_refused_cases, exists_exec_next_iff i s⟩

/-- Settles O35: a step stops at the end of the text, else where its fetch is refused, else where its execution is, and
each of these is refused exactly under its own conditions. -/
theorem stepStopsExactlyAsListed : Obligations.StepStopsExactlyAsListed := by
  intro s
  refine ⟨step_ne_fault s, step_ne_notModelled s, step_eq_runFinal_iff, ?badFetch, ?notInScope, ?oddRd,
    ?pair0⟩
  case badFetch =>
    rw [step_eq_fetch_refusal_iff (.inl rfl), State.fetch_eq_badFetch_iff, State.pcInText_eq_false_iff,
      or_assoc, or_assoc]
  case notInScope =>
    rw [step_eq_notInScope_iff, State.fetch_eq_notInScope_iff, State.pcInText_iff, and_assoc, and_assoc]
  case oddRd => simp only [step_eq_exec_refusal_iff (.inl rfl), exec_eq_oddRd_iff]
  case pair0 => simp only [step_eq_exec_refusal_iff (.inr rfl), exec_eq_pair0_iff]

end Sys2Proof.Proofs
end

section
/-! SUPPORT. The state after reset (rules R23, R115), and a launched program's run to its end (rules R17, R118). -/

namespace Sys2Proof.Machine

open Sys2Proof.Statements

/-! ### Reset -/

@[simp] theorem State.resetFor_cfg (x : Xlen) (c : Config) : (State.resetFor x c).cfg = c := rfl

@[simp] theorem State.resetFor_mem (x : Xlen) (c : Config) : (State.resetFor x c).mem = [] := rfl

@[simp] theorem State.resetFor_xlen (x : Xlen) (c : Config) : (State.resetFor x c).xlen = x := by
  cases x <;> rfl

/-- Rule R115: `pc` is at `reset_pc`, which is an address of the machine's width. -/
theorem State.resetFor_pcVal {x : Xlen} {c : Config} (hc : c.wellFormed x = true) :
    (State.resetFor x c).pcVal = c.resetPc := by
  obtain ⟨-, -, -, -, hlt⟩ := (Config.wellFormed_iff x c).mp hc
  cases x <;> exact (BitVec.toNat_ofNat _ _).trans (Nat.mod_eq_of_lt hlt)

/-- Rule R11 at either width: the constant register reads as zero. -/
theorem State.regVal_zero {s : State} (hx : s.cfg.x0Hardwired = true) : s.regVal 0 = 0 := by
  have hz : isZeroReg s.cfg 0 = true := (isZeroReg_zero s.cfg).trans hx
  cases hs : s.core with
  | rv32 h => rw [State.regVal_of_rv32 hs, Hart.read_zeroReg hz]; rfl
  | rv64 h => rw [State.regVal_of_rv64 hs, Hart.read_zeroReg hz]; rfl

theorem State.launched_iff (s : State) :
    s.launched = true ↔ s.inv = true ∧ s.pcVal = s.cfg.textBase := by
  simp only [State.launched, Bool.and_eq_true, decide_eq_true_eq]

/-- A reset to `text_base` is a launch. -/
theorem State.resetFor_launched {x : Xlen} {c : Config} (hc : c.wellFormed x = true)
    (hpc : c.resetPc = c.textBase) : (State.resetFor x c).launched = true := by
  obtain ⟨hbase, -, hle, -, -⟩ := (Config.wellFormed_iff x c).mp hc
  rw [State.launched_iff, State.inv_iff, State.resetFor_pcVal hc, State.resetFor_xlen,
    State.resetFor_cfg, hpc]
  exact ⟨⟨hc, rfl, hbase, le_rfl, hle⟩, rfl⟩

/-! ### The text at an instruction index -/

/-- Whether an instruction is refused for its register pair is decided by the parameters and the width. -/
theorem stops_congr {s t : State} (hc : t.cfg = s.cfg) (hx : t.xlen = s.xlen) (rd : RegNum) :
    (OddRdStops t rd ↔ OddRdStops s rd) ∧ (Pair0Stops t rd ↔ Pair0Stops s rd) := by
  simp only [OddRdStops, Pair0Stops, hc, hx, and_self]

/-- The fetch at `text_base + 4 * k` is that of instruction index `k` (rules R17, R26). -/
theorem State.fetch_eq_instrAt {s : State} {k : Nat} (hin : s.pcInText = true)
    (hpc : s.pcVal = s.cfg.textBase + 4 * k) : s.fetch = s.instrAt k := by
  have hk : (s.cfg.textBase + 4 * k - s.cfg.textBase) / 4 = k := by omega
  rw [State.fetch, if_pos hin, State.fetchBinary, State.fetchTextual, hpc, hk]
  rfl

/-- The program text is all instructions that no register pair stops. -/
def State.Executable (s : State) : Prop :=
  ∀ k, k < s.textLength → ∃ i, s.instrAt k = .ok i ∧ ¬ OddRdStops s i.rd ∧ ¬ Pair0Stops s i.rd

theorem step_keeps_executable {s t : State} (hs : s.Executable) (h : step s = .next t) :
    t.Executable := by
  obtain ⟨hcfg, hmem, hlist, hx, -⟩ := step_next_frame h
  have hstops := stops_congr hcfg hx
  simpa only [State.Executable, State.textLength, State.instrAt, hcfg, hmem, hlist,
    fun rd => (hstops rd).1, fun rd => (hstops rd).2] using hs

/-! ### A run along the text -/

/-- From a well-placed state the sum of rule R17 does not wrap: a step is taken below `text_end`. -/
theorem step_next_pcVal {s t : State} (hs : s.inv = true) (h : step s = .next t) :
    t.pcVal = s.pcVal + 4 := by
  obtain ⟨-, -, -, -, hpc⟩ := step_next_frame h
  obtain ⟨-, hin, -⟩ := step_next h
  obtain ⟨hwf, -, -, -, -⟩ := (State.inv_iff s).mp hs
  obtain ⟨-, hend, -, hlt, -⟩ := (Config.wellFormed_iff _ _).mp hwf
  obtain ⟨hal, -, hbelow⟩ := (State.pcInText_iff s).mp hin
  rw [hpc, Nat.mod_eq_of_lt (by omega)]

/-- Before the end of a text that is all instructions a step completes. -/
theorem State.Executable.exists_step {s : State} {k : Nat} (hx : s.Executable) (hs : s.inv = true)
    (hpc : s.pcVal = s.cfg.textBase + 4 * k) (hk : k < s.textLength) : ∃ t, step s = .next t := by
  have hin : s.pcInText = true := by
    obtain ⟨-, -, hal, hge, -⟩ := (State.inv_iff s).mp hs
    unfold State.textLength at hk
    exact (State.pcInText_iff s).mpr ⟨hal, hge, by omega⟩
  obtain ⟨i, hi, hstops⟩ := hx k hk
  rw [step_of_fetch ((State.fetch_eq_instrAt hin hpc).trans hi)]
  exact (exists_exec_next_iff i s).mpr hstops

/-- A run that completes, and one step more. -/
theorem run_succ_of_run {k : Nat} {s u v : State} (hu : Sys2Proof.core.run k s = .next u)
    (hv : step u = .next v) : Sys2Proof.core.run (k + 1) s = .next v := by
  induction k generalizing s with
  | zero =>
    obtain rfl := Host.Outcome.next.inj hu
    exact run_succ_next 0 hv
  | succ k ih =>
    obtain ⟨s', hs, hk⟩ := exists_step_of_run_succ hu
    rw [run_succ_next _ hs, ih hk]

/-- The parameters and the program text are those before a run (rules R25, R26). -/
theorem run_next_frame {k : Nat} {s t : State} (h : Sys2Proof.core.run k s = .next t) :
    t.mem = s.mem ∧ t.listing = s.listing ∧ t.cfg = s.cfg := by
  refine run_keeps (P := fun u => u.mem = s.mem ∧ u.listing = s.listing ∧ u.cfg = s.cfg)
    (fun ⟨hmem, hlist, hcfg⟩ hstep => ?_) ⟨rfl, rfl, rfl⟩ h
  obtain ⟨hcfg', hmem', hlist', -, -⟩ := step_next_frame hstep
  exact ⟨hmem'.trans hmem, hlist'.trans hlist, hcfg'.trans hcfg⟩

/-- A launched program that is all instructions completes as many steps as it has instructions, each to the next
instruction's place. -/
theorem State.Executable.exists_run {s : State} (hx : s.Executable) (hs : s.launched = true) {j : Nat}
    (hj : j ≤ s.textLength) :
    ∃ u : State, Sys2Proof.core.run j s = .next u ∧ u.pcVal = s.cfg.textBase + 4 * j := by
  obtain ⟨hinv, hbase⟩ := (State.launched_iff s).mp hs
  induction j with
  | zero => exact ⟨s, rfl, hbase⟩
  | succ j ih =>
    obtain ⟨u, hu, hpc⟩ := ih (by omega)
    have huinv : u.inv = true := run_keeps step_keeps_inv hinv hu
    have hux : u.Executable := run_keeps step_keeps_executable hx hu
    obtain ⟨-, -, hcfg⟩ := run_next_frame hu
    obtain ⟨v, hv⟩ := hux.exists_step (k := j) huinv (by rw [hpc, hcfg])
      (by rwa [State.textLength, hcfg])
    exact ⟨v, run_succ_of_run hu hv, by rw [step_next_pcVal huinv hv, hpc]; rfl⟩

end Sys2Proof.Machine
end

section
/-! SUPPORT. Two instructions in a row with one accumulator (rules R62, R119). -/

namespace Sys2Proof.Machine

open Sys2Proof.Statements

/-- The accumulator is an ordinary register of RV64 or a pair d from 1 to 15 of RV32, so that it keeps the value written
to it. -/
def KeepsAccumulator (s : State) (rd : RegNum) : Prop :=
  (s.xlen = .rv64 → ¬ (s.cfg.x0Hardwired = true ∧ rd = 0)) ∧ (s.xlen = .rv32 → rd.toNat / 2 ≠ 0)

theorem KeepsAccumulator.congr {s t : State} {rd : RegNum} (hk : KeepsAccumulator s rd)
    (hc : t.cfg = s.cfg) (hx : t.xlen = s.xlen) : KeepsAccumulator t rd := by
  simpa only [KeepsAccumulator, hc, hx] using hk

/-- An accumulator read after an accumulator write gives the value written (rules R59, R60). -/
theorem accRead_accWrite {s u : State} {rd : RegNum} {acc v : DWord} (hk : KeepsAccumulator s rd)
    (hr : accRead s rd = .ok acc) (hw : accWrite s rd v = .ok u) : accRead u rd = .ok v := by
  obtain ⟨hk64, hk32⟩ := hk
  rcases accWrite_ok_cases hw with ⟨h, h', hs, hp, rfl⟩ | ⟨h, hs, rfl⟩
  · have hd : pairNum rd ≠ 0 := mt (pairNum_eq_zero_iff rd).mp (hk32 (State.xlen_of_rv32 hs))
    have ho : oddRdRefused s.cfg rd = false := by
      rw [← Bool.not_eq_true]
      intro ho
      simp [accRead, hs, ho] at hr
    obtain rfl := Except.ok.inj ((pairWrite_of_ne_zero h hd v).symm.trans hp)
    simp only [accRead, ho, Bool.false_eq_true, if_false]
    exact pairRead_advance_writePair h hd v
  · have hz := (isZeroReg_eq_false_iff _ _).mpr (hk64 (State.xlen_of_rv64 hs))
    rw [accRead_of_rv64 rfl, Hart.read_write, if_pos ⟨rfl, hz⟩]

/-- Neither OV nor `pc` enters an accumulator read. -/
theorem accRead_setOvIf_advance (s : State) (b : Bool) (rd : RegNum) :
    accRead (s.setOvIf b).advance rd = accRead s rd := by
  have hx : (s.setOvIf b).xlen = s.xlen := by cases b <;> rfl
  exact accRead_congr (by simp) (by simp [hx]) fun n _ => by simp

/-- An execution leaves its narrowed exact result in an accumulator that keeps it. -/
theorem exec_next_accRead {i : Instr} {s t : State} {acc : DWord} (he : exec i s = .next t)
    (ha : accRead s i.rd = .ok acc) (hk : KeepsAccumulator s i.rd) :
    accRead t i.rd = .ok (BitVec.ofInt 64 ((ruleOf i.mnemonic).narrow (exactResult i s acc))) := by
  obtain ⟨acc', u, hr, hw, rfl⟩ := exec_eq_next_iff.mp he
  obtain rfl : acc' = acc := Except.ok.inj (hr.symm.trans ha)
  rw [narrowing_eq_rule] at hw
  rw [accRead_setOvIf_advance, accRead_accWrite hk hr hw]

/-- Whether an execution completes is decided by `rd`, the parameters and the width, so after one that completes so does
every other with its `rd` (rule R119). -/
theorem exists_exec_next_of_exec_next {i j : Instr} {s t : State} (he : exec i s = .next t)
    (hrd : j.rd = i.rd) : ∃ u, exec j t = .next u := by
  obtain ⟨hcfg, -, -, hx, -⟩ := exec_next_frame he
  obtain ⟨hodd, hpair⟩ := stops_congr hcfg hx i.rd
  rw [exists_exec_next_iff, hrd, hodd, hpair]
  exact (exists_exec_next_iff i s).mp ⟨t, he⟩

/-- SMAR64 leaves the low 64 bits of its sum in an accumulator that keeps them (rule R65). -/
theorem exec_smar64_accRead {rd rs1 rs2 : RegNum} {s t : State} {acc : DWord}
    (he : exec (.smar64 rd rs1 rs2) s = .next t) (ha : accRead s rd = .ok acc)
    (hk : KeepsAccumulator s rd) :
    accRead t rd = .ok (BitVec.ofInt 64 (acc.toInt + prodSumS s rs1 rs2)) := by
  have hrule := congrArg Prod.fst (narrowing_eq_rule (.smar64 rd rs1 rs2) s acc)
  exact (exec_next_accRead he ha hk).trans (congrArg Except.ok hrule.symm)

/-- A sum whose first part was already cut to 64 bits has the low 64 bits of the exact sum. -/
theorem ofInt_toInt_ofInt_add (x p : Int) :
    BitVec.ofInt 64 ((BitVec.ofInt 64 x).toInt + p) = BitVec.ofInt 64 (x + p) := by
  rw [BitVec.ofInt_add, BitVec.ofInt_toInt, ← BitVec.ofInt_add]

/-- SMAR64 twice, with multiplicands that it does not write, adds its product twice. -/
theorem exec_smar64_twice_accRead {rd rs1 rs2 : RegNum} {s t u : State} {acc : DWord}
    (he : exec (.smar64 rd rs1 rs2) s = .next t) (he' : exec (.smar64 rd rs1 rs2) t = .next u)
    (ha : accRead s rd = .ok acc) (hk : KeepsAccumulator s rd)
    (h1 : ¬ InAccumulator s.xlen rd rs1) (h2 : ¬ InAccumulator s.xlen rd rs2) :
    accRead u rd = .ok (BitVec.ofInt 64 (acc.toInt + 2 * prodSumS s rs1 rs2)) := by
  obtain ⟨hcfg, -, -, hx, -⟩ := exec_next_frame he
  obtain ⟨hprod, -⟩ := prodSum_congr hcfg hx (exec_next_regVal he h1) (exec_next_regVal he h2)
  rw [exec_smar64_accRead he' (exec_smar64_accRead he ha hk) (hk.congr hcfg hx), hprod,
    ofInt_toInt_ofInt_add, add_assoc, two_mul]

end Sys2Proof.Machine
end

section
/-! SUPPORT. The statements about reset, a launched program's run and back-to-back instructions, settled. -/

namespace Sys2Proof.Proofs

open Sys2Proof.Machine Sys2Proof.Statements

/-- Settles O40, by induction on the number of steps: every state passed through is well placed with the same
text, so its next instruction completes. -/
theorem launchedProgramRunsToItsEnd : Obligations.LaunchedProgramRunsToItsEnd := by
  intro s hs hx j hj
  obtain ⟨hinv, -⟩ := (State.launched_iff s).mp hs
  obtain ⟨hwf, -, -, -, -⟩ := (State.inv_iff s).mp hinv
  obtain ⟨hbase, hend, hle, -, -⟩ := (Config.wellFormed_iff _ _).mp hwf
  obtain ⟨u, hu, hpc⟩ := State.Executable.exists_run hx hs hj
  obtain ⟨hmem, hlist, hcfg⟩ := run_next_frame hu
  refine ⟨u, hu, hpc, ?_, hmem, hlist, hcfg⟩
  rw [State.isFinal_iff, hpc, hcfg, State.textLength]
  omega

/-- Settles O42: the second execution completes as the first did, and reads the accumulator that the first left. -/
theorem secondAccumulationReadsTheFirst : Obligations.SecondAccumulationReadsTheFirst := by
  refine ⟨fun s t i j acc hst hi hj hrd ha => ?_,
    fun s t rd rs1 rs2 acc hst hi hj h1 h2 hk64 hk32 ha => ?_⟩
  · have he : exec i s = .next t := (step_of_fetch hi).symm.trans hst
    obtain ⟨u, hu⟩ := exists_exec_next_of_exec_next he hrd
    obtain ⟨v, hv⟩ := exists_exec_next_of_exec_next hu rfl
    obtain ⟨acc1, ha1⟩ := exists_accRead_of_exec_next hu
    obtain ⟨acc2, ha2⟩ := exists_accRead_of_exec_next hv
    have ha1' : accRead t i.rd = .ok acc1 := hrd ▸ ha1
    refine ⟨u, acc1, acc2, (step_of_fetch hj).trans hu, ha1', hrd ▸ ha2, ?_, fun hk64 hk32 => ?_⟩
    · rw [exec_next_ov hu ha1, exec_next_ov he ha]
    · obtain ⟨hcfg, -, -, hx, -⟩ := exec_next_frame he
      have hk : KeepsAccumulator s i.rd := ⟨hk64, hk32⟩
      have hk' : KeepsAccumulator t j.rd := hrd ▸ hk.congr hcfg hx
      exact ⟨Except.ok.inj (ha1'.symm.trans (exec_next_accRead he ha hk)),
        Except.ok.inj (ha2.symm.trans (exec_next_accRead hu ha1 hk'))⟩
  · have he : exec (.smar64 rd rs1 rs2) s = .next t := (step_of_fetch hi).symm.trans hst
    obtain ⟨u, hu⟩ := exists_exec_next_of_exec_next (j := .smar64 rd rs1 rs2) he rfl
    exact ⟨u, (step_of_fetch hj).trans hu,
      exec_smar64_twice_accRead he hu ha ⟨hk64, hk32⟩ h1 h2⟩

/-- Settles O37: `State.reset` is a reset to `text_base` too. -/
theorem resetIsWellPlaced : Obligations.ResetIsWellPlaced := by
  have hlaunch : ∀ (x : Xlen) (c : Config), c.wellFormed x = true → c.resetPc = c.textBase →
      (State.resetFor x c).inv = true ∧ (State.resetFor x c).launched = true := fun x c hc hpc =>
    have hl := State.resetFor_launched hc hpc
    ⟨((State.launched_iff _).mp hl).1, hl⟩
  exact ⟨(hlaunch .rv64 {} (by decide) rfl).1, hlaunch⟩

/-- Settles O38. -/
theorem resetSetsPcAndConstantRegister : Obligations.ResetSetsPcAndConstantRegister :=
  fun x c hc => ⟨State.resetFor_pcVal hc, State.resetFor_xlen x c, State.resetFor_cfg x c,
    fun hx => State.regVal_zero hx⟩

end Sys2Proof.Proofs
end
